-- ==== Sys2Proof/Word.lean ====
section
/-! DEFINITION. The element types of the block (R6, R7, R51) and the two small enumerations every
other file uses: the engines (R18) and the decoder modes (R22). -/

namespace Sys2Proof

/-- A `CP32` element: an unsigned 32-bit word (R6, R51). -/
abbrev Word := BitVec 32

/-- A `U8` element: an unsigned byte, never sign-extended (R7, R51). -/
abbrev Byte := BitVec 8

/-- The 5-bit registers `D.bits` and `D.exp` (R25, R26). -/
abbrev Count5 := BitVec 5

/-- The two engines, each an agent that takes its own steps (R18). -/
inductive Engine where
  | enc
  | dec
  deriving DecidableEq, Repr, Inhabited

/-- `D.mode` (R22). The fourth code `0b11` is never written, and R22 lets a model leave it out. -/
inductive Mode where
  | start
  | cont
  | drain
  deriving DecidableEq, Repr

/-- The two bits that hold each mode (R22; they cannot be observed). -/
def Mode.code : Mode → BitVec 2
  | .start => 0b00#2
  | .cont => 0b01#2
  | .drain => 0b10#2

end Sys2Proof
end

