-- ==== Sys2Proof/Config.lean ====
section
/-! DEFINITION. What is fixed when a block is built (R9, R11, R12), as plain data that `State` carries
and no step changes, and the one free value of the model: which engine moves when the schedule names
none (R18). -/

namespace Sys2Proof

/-- The build-time parameters. A statement over every state is a statement for every value of them. -/
structure Config where
  /-- `DEC_VALIDATE` (R9). -/
  decValidate : Bool
  /-- `LEN_W`, the width of the frame cursors (R11). -/
  lenW : Nat
  /-- `ENC_IN_DEPTH`, in words (R12). -/
  encInDepth : Nat
  /-- `ENC_OUT_DEPTH`, in bytes (R12). -/
  encOutDepth : Nat
  /-- `DEC_IN_DEPTH`, in bytes (R12). -/
  decInDepth : Nat
  /-- `DEC_OUT_DEPTH`, in words (R12). -/
  decOutDepth : Nat
  deriving DecidableEq, Repr

namespace Config

/-- `MAX_FRAME = 2^LEN_W - 1`, the longest frame an engine accepts (R11). -/
def maxFrame (c : Config) : Nat := 2 ^ c.lenW - 1

/-- The bounds R12 puts on the channel depths. -/
abbrev Valid (c : Config) : Prop :=
  1 ≤ c.encInDepth ∧ 4 ≤ c.encOutDepth ∧ 1 ≤ c.decInDepth ∧ 1 ≤ c.decOutDepth

/-- The configuration of `State.reset`. `DEC_VALIDATE` has the default R9 gives.
DESIGN CHOICE (log 2): the spec leaves `LEN_W` and the depths open, so these numbers are the model's. -/
def default : Config where
  decValidate := false
  lenW := 32
  encInDepth := 1024
  encOutDepth := 4096
  decInDepth := 4096
  decOutDepth := 1024

/-- FREE VALUE (R18, 93 item 15; log 3): the engine that is offered the step when the schedule of
`State` names no agent. It has no body, so nothing can be proved of its values. -/
opaque freeTurn : Nat → Engine

end Config

end Sys2Proof
end

