-- ==== Sys2Proof/Syntax.lean ====
section
/-! DEFINITION. The operations of the block, one constructor per row of spec/opcode_table.json, each
with the payload fields its element carries (R52, R53), and the error causes (R117). -/

namespace Sys2Proof

/-- The 19 element operations and the 2 frame commands. -/
inductive Instr where
  /-- ENC_1B (R74): `w[6:0]`. -/
  | enc1B (p : BitVec 7)
  /-- ENC_2B (R75): `w[10:6]`, `w[5:0]`. -/
  | enc2B (hi : BitVec 5) (lo : BitVec 6)
  /-- ENC_SUR (R76): the word is `0xD800` with these low 11 bits. -/
  | encSur (low : BitVec 11)
  /-- ENC_3B (R77): `w[15:12]`, `w[11:6]`, `w[5:0]`. -/
  | enc3B (hi : BitVec 4) (mid lo : BitVec 6)
  /-- ENC_4B (R78): `w[20:18]`, `w[17:12]`, `w[11:6]`, `w[5:0]`. -/
  | enc4B (top : BitVec 3) (hi mid lo : BitVec 6)
  /-- ENC_OVR (R79): the whole word. -/
  | encOvr (w : Word)
  /-- ENC_FRAME (R82). -/
  | encFrame (n : Nat)
  /-- DEC_ASCII (R85): `b[6:0]`. -/
  | decAscii (p : BitVec 7)
  /-- DEC_LEAD2 (R86): `b[4:0]`. -/
  | decLead2 (p : BitVec 5)
  /-- DEC_LEAD2_TRUNC (R87): `b[4:0]`. -/
  | decLead2Trunc (p : BitVec 5)
  /-- DEC_LEAD3 (R88): `b[3:0]`. -/
  | decLead3 (p : BitVec 4)
  /-- DEC_LEAD3_TRUNC (R89): `b[3:0]`. -/
  | decLead3Trunc (p : BitVec 4)
  /-- DEC_LEAD4 (R90): `b[2:0]`. -/
  | decLead4 (p : BitVec 3)
  /-- DEC_LEAD4_TRUNC (R91): `b[2:0]`. -/
  | decLead4Trunc (p : BitVec 3)
  /-- DEC_STRAY (R92): `b[5:0]`. -/
  | decStray (p : BitVec 6)
  /-- DEC_BADLEAD (R93): `b[2:0]`. -/
  | decBadlead (p : BitVec 3)
  /-- DEC_CONT (R94): `b[5:0]`. -/
  | decCont (p : BitVec 6)
  /-- DEC_CONT_LAST (R95): `b[5:0]`. -/
  | decContLast (p : BitVec 6)
  /-- DEC_BADCONT (R96): the whole byte. -/
  | decBadcont (b : Byte)
  /-- DEC_DRAIN (R97): the whole byte. -/
  | decDrain (b : Byte)
  /-- DEC_FRAME (R98). -/
  | decFrame (n : Nat)
  deriving DecidableEq, Repr

/-- The six byte formats (R53). -/
inductive ByteFormat where
  | ascii
  | cont
  | lead2
  | lead3
  | lead4
  | bad
  deriving DecidableEq, Repr

/-- The error causes (R117): names inside the model, stored nowhere and visible on no port (R118). -/
inductive Cause where
  | encOvr
  | encSur
  | decLead
  | decTrunc
  | decCont
  | decOverlong
  | decSur
  | decOvr
  deriving DecidableEq, Repr

/-- The code R117 gives each cause. -/
def Cause.code : Cause → Nat
  | .encOvr => 1
  | .encSur => 2
  | .decLead => 3
  | .decTrunc => 4
  | .decCont => 5
  | .decOverlong => 6
  | .decSur => 7
  | .decOvr => 8

end Sys2Proof
end

