-- ==== Sys2Proof/WellFormed.lean ====
section
/-! DEFINITION. Which instructions stand for an element of their own class (R52, R58, R60). -/

namespace Sys2Proof

/-- A value in the surrogate range (Glossary, R76). -/
abbrev isSurrogate (v : Nat) : Prop := 0xD800 ≤ v ∧ v ≤ 0xDFFF

/-- The operands lie in the value range their operation is selected for. The count of a frame command
is bounded by the configuration, so its bound is checked where the command runs (R120). -/
def Instr.wellFormed : Instr → Bool
  | .enc1B _ => true
  | .enc2B hi lo => decide (0x80 ≤ (hi ++ lo).toNat)
  | .encSur _ => true
  | .enc3B hi mid lo =>
      decide (0x800 ≤ (hi ++ mid ++ lo).toNat) && !decide (isSurrogate (hi ++ mid ++ lo).toNat)
  | .enc4B top hi mid lo =>
      decide (0x10000 ≤ (top ++ hi ++ mid ++ lo).toNat)
        && decide ((top ++ hi ++ mid ++ lo).toNat ≤ 0x10FFFF)
  | .encOvr w => decide (0x10FFFF < w.toNat)
  | .encFrame _ => true
  | .decAscii _ => true
  | .decLead2 _ => true
  | .decLead2Trunc _ => true
  | .decLead3 _ => true
  | .decLead3Trunc _ => true
  | .decLead4 _ => true
  | .decLead4Trunc _ => true
  | .decStray _ => true
  | .decBadlead _ => true
  | .decCont _ => true
  | .decContLast _ => true
  | .decBadcont b => b &&& 0xC0#8 != 0x80#8
  | .decDrain _ => true
  | .decFrame _ => true

/-- The check as a proposition. -/
abbrev Instr.WellFormed (i : Instr) : Prop := i.wellFormed = true

end Sys2Proof
end

