-- ==== Sys2Proof/Decode.lean ====
section
/-! DEFINITION. The selection of an operation by the element an engine takes and, for the decoder, by
its mode and counters (R57 to R61), then the encoder that writes an operation back as an element. -/

namespace Sys2Proof

/-- What an engine reads to select its operation: the word `E` pops; the byte `D` pops with `D.mode`,
`D.rem`, `D.bits` and `D.exp`; or a frame command with its count (R68). -/
inductive Fetch where
  | word (w : Word)
  | byte (mode : Mode) (rem : Nat) (bits exp : Count5) (b : Byte)
  | encCommand (n : Nat)
  | decCommand (n : Nat)
  deriving DecidableEq, Repr

/-- Why a fetch selects no operation. Neither case can occur between steps of a run. -/
inductive Reject where
  /-- A decoder byte with `D.rem = 0`: no step runs there (R21). -/
  | frameExhausted
  /-- A continuation byte with `D.bits + 6 > D.exp`, which R60 says cannot occur. -/
  | counterPastTotal
  deriving DecidableEq, Repr

/-- The search of `bitw` below bit `n`. -/
def bitwBelow (w : Word) : Nat → Nat
  | 0 => 0
  | n + 1 => if w.getLsbD n then n + 1 else bitwBelow w n

/-- `BITW(w)`: one more than the index of the most significant 1 bit, and 0 for 0 (R71). -/
def bitw (w : Word) : Nat := bitwBelow w 32

/-- The encoder's selection: the first condition of R57 that holds, with the fields of R52. -/
def decodeWord (w : Word) : Instr :=
  if bitw w ≤ 7 then .enc1B (w.extractLsb' 0 7)
  else if bitw w ≤ 11 then .enc2B (w.extractLsb' 6 5) (w.extractLsb' 0 6)
  else if bitw w ≤ 16 ∧ isSurrogate w.toNat then .encSur (w.extractLsb' 0 11)
  else if bitw w ≤ 16 then
    .enc3B (w.extractLsb' 12 4) (w.extractLsb' 6 6) (w.extractLsb' 0 6)
  else if bitw w ≤ 21 ∧ w.toNat ≤ 0x10FFFF then
    .enc4B (w.extractLsb' 18 3) (w.extractLsb' 12 6) (w.extractLsb' 6 6) (w.extractLsb' 0 6)
  else .encOvr w

/-- The format of a byte, by the masks and matches of R53. -/
def formatOf (b : Byte) : ByteFormat :=
  if b &&& 0x80#8 = 0x00#8 then .ascii
  else if b &&& 0xC0#8 = 0x80#8 then .cont
  else if b &&& 0xE0#8 = 0xC0#8 then .lead2
  else if b &&& 0xF0#8 = 0xE0#8 then .lead3
  else if b &&& 0xF8#8 = 0xF0#8 then .lead4
  else .bad

/-- The decoder's selection in `START` (R59). -/
def decodeStart (rem : Nat) (b : Byte) : Instr :=
  match formatOf b with
  | .ascii => .decAscii (b.extractLsb' 0 7)
  | .lead2 =>
    if 2 ≤ rem then .decLead2 (b.extractLsb' 0 5) else .decLead2Trunc (b.extractLsb' 0 5)
  | .lead3 =>
    if 3 ≤ rem then .decLead3 (b.extractLsb' 0 4) else .decLead3Trunc (b.extractLsb' 0 4)
  | .lead4 =>
    if 4 ≤ rem then .decLead4 (b.extractLsb' 0 3) else .decLead4Trunc (b.extractLsb' 0 3)
  | .cont => .decStray (b.extractLsb' 0 6)
  | .bad => .decBadlead (b.extractLsb' 0 3)

/-- The decoder's selection in `CONT` (R60). -/
def decodeCont (bits exp : Count5) (b : Byte) : Except Reject Instr :=
  if formatOf b = .cont then
    if bits.toNat + 6 < exp.toNat then .ok (.decCont (b.extractLsb' 0 6))
    else if bits.toNat + 6 = exp.toNat then .ok (.decContLast (b.extractLsb' 0 6))
    else .error .counterPastTotal
  else .ok (.decBadcont b)

/-- The decoder's selection in any mode (R59, R60, R61). -/
def decodeByte (mode : Mode) (rem : Nat) (bits exp : Count5) (b : Byte) : Except Reject Instr :=
  if rem = 0 then .error .frameExhausted
  else
    match mode with
    | .start => .ok (decodeStart rem b)
    | .cont => decodeCont bits exp b
    | .drain => .ok (.decDrain b)

/-- The operation a fetch selects, or the reason there is none. -/
def decode : Fetch → Except Reject Instr
  | .word w => .ok (decodeWord w)
  | .byte mode rem bits exp b => decodeByte mode rem bits exp b
  | .encCommand n => .ok (.encFrame n)
  | .decCommand n => .ok (.decFrame n)

/-- The operation of a word or byte given without decoder state: a byte is read in `START` with the
four bytes of the longest unit left in its frame (log 6). -/
def decodeTableWord (nbits w : Nat) : Option Instr :=
  match nbits with
  | 32 => (decode (.word (BitVec.ofNat 32 w))).toOption
  | 8 => (decode (.byte .start 4 0#5 0#5 (BitVec.ofNat 8 w))).toOption
  | _ => none

/-- An element, with the smallest decoder state, that selects the instruction: the words of R52 and
the patterns of R53. Where several decoder states select one operation this names one of them. -/
def encode : Instr → Fetch
  | .enc1B p => .word (p.setWidth 32)
  | .enc2B hi lo => .word ((hi ++ lo).setWidth 32)
  | .encSur low => .word (0xD800#32 ||| low.setWidth 32)
  | .enc3B hi mid lo => .word ((hi ++ mid ++ lo).setWidth 32)
  | .enc4B top hi mid lo => .word ((top ++ hi ++ mid ++ lo).setWidth 32)
  | .encOvr w => .word w
  | .encFrame n => .encCommand n
  | .decAscii p => .byte .start 1 0#5 0#5 (0x00#8 ||| p.setWidth 8)
  | .decLead2 p => .byte .start 2 0#5 0#5 (0xC0#8 ||| p.setWidth 8)
  | .decLead2Trunc p => .byte .start 1 0#5 0#5 (0xC0#8 ||| p.setWidth 8)
  | .decLead3 p => .byte .start 3 0#5 0#5 (0xE0#8 ||| p.setWidth 8)
  | .decLead3Trunc p => .byte .start 1 0#5 0#5 (0xE0#8 ||| p.setWidth 8)
  | .decLead4 p => .byte .start 4 0#5 0#5 (0xF0#8 ||| p.setWidth 8)
  | .decLead4Trunc p => .byte .start 1 0#5 0#5 (0xF0#8 ||| p.setWidth 8)
  | .decStray p => .byte .start 1 0#5 0#5 (0x80#8 ||| p.setWidth 8)
  | .decBadlead p => .byte .start 1 0#5 0#5 (0xF8#8 ||| p.setWidth 8)
  | .decCont p => .byte .cont 2 4#5 16#5 (0x80#8 ||| p.setWidth 8)
  | .decContLast p => .byte .cont 1 5#5 11#5 (0x80#8 ||| p.setWidth 8)
  | .decBadcont b => .byte .cont 1 5#5 11#5 b
  | .decDrain b => .byte .drain 1 0#5 0#5 b
  | .decFrame n => .decCommand n

end Sys2Proof
end

