-- ==== Sys2Proof/Machine/State.lean ====
section
/-! DEFINITION. The state of the block as plain data (10_state.md), the host's side and the schedule
beside it, the reasons a step is refused, and reset. -/

namespace Sys2Proof.Machine

/-- The encoder engine: its registers and its two channels, oldest element first (R20, R32). -/
structure Encoder where
  /-- `E.active` (R20). -/
  active : Bool
  /-- `E.rem` (R20, R21), at most `MAX_FRAME`. -/
  rem : Nat
  /-- `ENC_IN` (R32). -/
  input : List Word
  /-- `ENC_OUT` (R32). -/
  output : List Byte
  deriving DecidableEq, Repr

/-- The decoder's unit registers, hidden from the host (R33). -/
structure UnitRegs where
  /-- `D.mode` (R22). -/
  mode : Mode
  /-- `D.acc` (R24). -/
  acc : Word
  /-- `D.bits` (R25). -/
  bits : Count5
  /-- `D.exp` (R26). -/
  exp : Count5
  deriving DecidableEq, Repr

/-- The decoder engine: its registers and its two channels, oldest element first (R23, R32). -/
structure Decoder where
  /-- `D.active` (R23). -/
  active : Bool
  /-- `D.rem` (R21, R23), at most `MAX_FRAME`. -/
  rem : Nat
  /-- The unit registers `D.mode`, `D.acc`, `D.bits`, `D.exp`. -/
  unit : UnitRegs
  /-- `DEC_IN` (R32). -/
  input : List Byte
  /-- `DEC_OUT` (R32). -/
  output : List Word
  deriving DecidableEq, Repr

/-- What the host has learned: the elements it popped, oldest first, and the busy bits it last read
(R31, R32). It is no part of the block (log 4). -/
structure HostView where
  encGot : List Byte
  decGot : List Word
  encBusy : Option Bool
  decBusy : Option Bool
  deriving DecidableEq, Repr

/-- Who takes a step and what it does: an engine's turn, a host action (R18, R31, R32), or the
hardware reset (R133). -/
inductive Event where
  | turn (e : Engine)
  | encCommand (n : Nat)
  | decCommand (n : Nat)
  | pushEnc (w : Word)
  | pushDec (b : Byte)
  | popEnc
  | popDec
  | readEncBusy
  | readDecBusy
  | hardwareReset
  deriving DecidableEq, Repr

/-- Everything the machine is. -/
structure State where
  /-- The build-time parameters (R9, R11, R12), which no step changes. -/
  cfg : Config
  /-- The encoder engine. -/
  enc : Encoder
  /-- The decoder engine. -/
  dec : Decoder
  /-- What the host holds. -/
  host : HostView
  /-- The schedule: the agents' next moves, soonest first (R18, log 1). -/
  pending : List Event
  /-- The counter the free value `Config.freeTurn` is applied to (log 3). -/
  turns : Nat
  deriving DecidableEq, Repr

/-- No input is a fault: R119 says "A model of the block needs no fault state for input data.", and
no other event of the spec is one, so no step raises a fault. -/
inductive Fault where
  deriving DecidableEq, Repr

/-- Why a step is refused. -/
inductive Refusal where
  /-- An instruction without a meaning; no arm of `exec` raises it. Safe. -/
  | notModelled (mnemonic : String)
  /-- Raised by ENC_FRAME and DEC_FRAME while their engine is active (R120, R138). Safe. -/
  | frameWhileActive (e : Engine)
  /-- Raised by ENC_FRAME and DEC_FRAME for a count above `MAX_FRAME` (R120). Safe. -/
  | countAboveMaxFrame (e : Engine)
  /-- Raised by a host push into a full input channel (R120). Safe. -/
  | pushToFullChannel (e : Engine)
  /-- Raised by a host pop from an empty output channel (R120). Safe. -/
  | popFromEmptyChannel (e : Engine)
  /-- Raised by a decoder turn whose counters select no operation, which R60 says cannot occur. Safe. -/
  | noOperation (r : Reject)
  /-- Raised by DEC_CONT_LAST with the validator on when `D.exp` is none of 11, 16 and 21, so that
  R26 gives the unit no length; no run reaches it (R28). Safe. -/
  | noUnitLength
  deriving DecidableEq, Repr

/-- `clear()` together with the mode that follows it (R27, 41_decoder.md). -/
def UnitRegs.clear (m : Mode) : UnitRegs := ⟨m, 0#32, 0#5, 0#5⟩

/-- The encoder after hardware reset (R35). -/
def Encoder.reset : Encoder := ⟨false, 0, [], []⟩

/-- The decoder after hardware reset (R35). -/
def Decoder.reset : Decoder := ⟨false, 0, UnitRegs.clear .start, [], []⟩

/-- The machine right after reset (R35, R133), with the model's default configuration (log 2), a host
that has learned nothing and an empty schedule. -/
def State.reset : State where
  cfg := Config.default
  enc := Encoder.reset
  dec := Decoder.reset
  host := ⟨[], [], none, none⟩
  pending := []
  turns := 0

/-- `s` with the encoder engine replaced. -/
def State.withEnc (s : State) (e : Encoder) : State := { s with enc := e }

/-- `s` with the decoder engine replaced. -/
def State.withDec (s : State) (d : Decoder) : State := { s with dec := d }

/-- `s` with the host's view replaced. -/
def State.withHost (s : State) (h : HostView) : State := { s with host := h }

/-- `s` with the schedule replaced. -/
def State.withPending (s : State) (p : List Event) : State := { s with pending := p }

/-- `s` with the free-value counter advanced. -/
def State.tick (s : State) : State := { s with turns := s.turns + 1 }

/-- One step's answer, with this machine's reasons. -/
abbrev Answer := Host.Outcome State Fault Refusal

end Sys2Proof.Machine
end

