-- ==== Sys2Proof/Machine/Flags.lean ====
section
/-! DEFINITION. The block has no flags and no condition codes (R30). Its only status is the two busy
bits, which frame commands and element steps change and the host may read (R31). -/

namespace Sys2Proof.Machine

/-- The value `X.active` takes when `X.rem` becomes `n`: a frame is in progress while elements of it
remain (R21, R82, R84, R98). -/
def frameOpen (n : Nat) : Bool := n != 0

/-- The busy bit the host reads for an engine (R31). -/
def State.busy (s : State) : Engine → Bool
  | .enc => s.enc.active
  | .dec => s.dec.active

end Sys2Proof.Machine
end

