-- ==== Sys2Proof/Machine/Operands.lean ====
section
/-! DEFINITION. How payload fields become accumulator values and output bytes (R54, R55, R56). -/

namespace Sys2Proof.Machine

/-- A payload field zero-extended to a word: a lead loaded into the accumulator, or an ASCII byte
(R54, R85). -/
def payload {n : Nat} (p : BitVec n) : Word := p.setWidth 32

/-- The accumulator after a continuation byte: `(D.acc << 6) | zext_32(b & 0x3F)` (R40, R54, R94). -/
def accumulate (acc : Word) (p : BitVec 6) : Word := (acc <<< 6) ||| payload p

/-- A marker pattern with a payload field ORed into its low bits (R55). -/
def marked {n : Nat} (marker : Byte) (p : BitVec n) : Byte := marker ||| p.setWidth 8

/-- The 1-byte group (R55). -/
def group1 (p : BitVec 7) : List Byte := [p.setWidth 8]

/-- The 2-byte group (R55). -/
def group2 (hi : BitVec 5) (lo : BitVec 6) : List Byte := [marked 0xC0#8 hi, marked 0x80#8 lo]

/-- The 3-byte group (R55). -/
def group3 (hi : BitVec 4) (mid lo : BitVec 6) : List Byte :=
  [marked 0xE0#8 hi, marked 0x80#8 mid, marked 0x80#8 lo]

/-- The 4-byte group (R55). -/
def group4 (top : BitVec 3) (hi mid lo : BitVec 6) : List Byte :=
  [marked 0xF0#8 top, marked 0x80#8 hi, marked 0x80#8 mid, marked 0x80#8 lo]

/-- `REPL_BYTES`, the marker on the encoder side (R105). -/
def replBytes : List Byte := [0xEF#8, 0xBF#8, 0xBD#8]

/-- `REPL_CP`, the marker on the decoder side (R105). -/
def replCp : Word := 0x0000FFFD#32

/-- `L(D.exp)`, the unit length that an expected total stands for (R26). -/
def unitLength (exp : Count5) : Option Nat :=
  if exp = 11#5 then some 2
  else if exp = 16#5 then some 3
  else if exp = 21#5 then some 4
  else none

/-- `MIN(L)`, the least value a unit of length 2, 3 or 4 may carry (R110). -/
def minValue : Nat → Nat
  | 2 => 0x80
  | 3 => 0x800
  | _ => 0x10000

/-- `VALID(v, L)` (R110). -/
def valid (v : Word) (len : Nat) : Bool :=
  decide (minValue len ≤ v.toNat) && !decide (isSurrogate v.toNat) && decide (v.toNat ≤ 0x10FFFF)

/-- `CAUSE(v, L)`: the first of R111's tests that holds, for a value that fails `valid`. -/
def validatorCause (v : Word) (len : Nat) : Cause :=
  if v.toNat < minValue len then .decOverlong
  else if isSurrogate v.toNat then .decSur
  else .decOvr

end Sys2Proof.Machine
end

