-- ==== Sys2Proof/Machine/Ops.lean ====
section
/-! DEFINITION. The shared operations of the two engines: when a step is enabled, the one element step
each engine takes, substitution (which stands where taking an exception would, R124) and the start of
a frame. -/

namespace Sys2Proof.Machine

/-- The encoder's step is enabled (R44, R73), with the elements of its frame not used up (R21). -/
abbrev EncReady (s : State) : Prop :=
  s.enc.active = true ∧ 1 ≤ s.enc.rem ∧ s.enc.input ≠ []
    ∧ s.enc.output.length + 4 ≤ s.cfg.encOutDepth

/-- The decoder's step is enabled (R44, R83), with the elements of its frame not used up (R21). -/
abbrev DecReady (s : State) : Prop :=
  s.dec.active = true ∧ 1 ≤ s.dec.rem ∧ s.dec.input ≠ []
    ∧ s.dec.output.length + 1 ≤ s.cfg.decOutDepth

/-- The state after an encoder element step that emits `group` (R73). -/
def encAfter (group : List Byte) (s : State) : State :=
  s.withEnc
    { active := frameOpen (s.enc.rem - 1)
      rem := s.enc.rem - 1
      input := s.enc.input.tail
      output := s.enc.output ++ group }

/-- The state after a decoder element step that leaves the unit registers `u` and emits `out` (R83),
with the epilogue of R84. -/
def decAfter (u : UnitRegs) (out : List Word) (s : State) : State :=
  s.withDec
    { active := frameOpen (s.dec.rem - 1)
      rem := s.dec.rem - 1
      unit := u
      input := s.dec.input.tail
      output := s.dec.output ++ out }

/-- One encoder element step. An engine whose step is not enabled waits (R81, R137, R139). -/
def encElement (group : List Byte) (s : State) : Answer :=
  if EncReady s then .next (encAfter group s) else .next s

/-- One decoder element step. An engine whose step is not enabled waits (R102, R137, R139). -/
def decElement (u : UnitRegs) (out : List Word) (s : State) : Answer :=
  if DecReady s then .next (decAfter u out s) else .next s

/-- `substitute(cause)` in an encoder step: the marker's three bytes take the unit's place and the
cause is stored nowhere (R106, R118). -/
def substituteEnc (_cause : Cause) (s : State) : Answer := encElement replBytes s

/-- `substitute(cause)` in a decoder step, with the reset of the unit state that follows it: the
marker is emitted, the unit registers are cleared and `D.mode` becomes `m` (R107, R118). -/
def substituteDec (_cause : Cause) (m : Mode) (s : State) : Answer :=
  decElement (UnitRegs.clear m) [replCp] s

/-- The state after `ENC_FRAME(n)` (R82). -/
def encFrameAfter (n : Nat) (s : State) : State :=
  s.withEnc { s.enc with active := frameOpen n, rem := n }

/-- The state after `DEC_FRAME(n)` (R98). -/
def decFrameAfter (n : Nat) (s : State) : State :=
  s.withDec { s.dec with active := frameOpen n, rem := n, unit := UnitRegs.clear .start }

/-- Accept a frame command, or refuse the first two violations of R120 (their order when both hold is
the model's, log 8). -/
def startFrame (e : Engine) (n : Nat) (after : State) (s : State) : Answer :=
  if s.busy e = true then .refused (.frameWhileActive e)
  else if s.cfg.maxFrame < n then .refused (.countAboveMaxFrame e)
  else .next after

end Sys2Proof.Machine
end

