-- ==== Sys2Proof/Machine/DecodeUnits.lean ====
section
/-! DEFINITION. The decoder family (41_decoder.md), with the validator inside DEC_CONT_LAST
(42_substitution.md). -/

namespace Sys2Proof.Machine

/-- DEC_ASCII (R85). -/
def execDecAscii (p : BitVec 7) (s : State) : Answer := decElement s.dec.unit [payload p] s

/-- DEC_LEAD2 (R86). -/
def execDecLead2 (p : BitVec 5) (s : State) : Answer :=
  decElement ⟨.cont, payload p, 5#5, 11#5⟩ [] s

/-- DEC_LEAD2_TRUNC (R87). -/
def execDecLead2Trunc (_p : BitVec 5) (s : State) : Answer := substituteDec .decTrunc .drain s

/-- DEC_LEAD3 (R88). -/
def execDecLead3 (p : BitVec 4) (s : State) : Answer :=
  decElement ⟨.cont, payload p, 4#5, 16#5⟩ [] s

/-- DEC_LEAD3_TRUNC (R89). -/
def execDecLead3Trunc (_p : BitVec 4) (s : State) : Answer := substituteDec .decTrunc .drain s

/-- DEC_LEAD4 (R90). -/
def execDecLead4 (p : BitVec 3) (s : State) : Answer :=
  decElement ⟨.cont, payload p, 3#5, 21#5⟩ [] s

/-- DEC_LEAD4_TRUNC (R91). -/
def execDecLead4Trunc (_p : BitVec 3) (s : State) : Answer := substituteDec .decTrunc .drain s

/-- DEC_STRAY (R92). -/
def execDecStray (_p : BitVec 6) (s : State) : Answer := substituteDec .decLead .start s

/-- DEC_BADLEAD (R93). -/
def execDecBadlead (_p : BitVec 3) (s : State) : Answer := substituteDec .decLead .start s

/-- DEC_CONT (R94). -/
def execDecCont (p : BitVec 6) (s : State) : Answer :=
  decElement
    { s.dec.unit with acc := accumulate s.dec.unit.acc p, bits := s.dec.unit.bits + 6#5 } [] s

/-- The emission of a completed value when `DEC_VALIDATE` is true (R95, R110, R111). -/
def emitValidated (v : Word) (s : State) : Answer :=
  match unitLength s.dec.unit.exp with
  | none => .refused .noUnitLength
  | some len =>
    if valid v len = true then decElement (UnitRegs.clear .start) [v] s
    else substituteDec (validatorCause v len) .start s

/-- DEC_CONT_LAST (R95). -/
def execDecContLast (p : BitVec 6) (s : State) : Answer :=
  if s.cfg.decValidate = true then emitValidated (accumulate s.dec.unit.acc p) s
  else decElement (UnitRegs.clear .start) [accumulate s.dec.unit.acc p] s

/-- DEC_BADCONT (R96). -/
def execDecBadcont (_b : Byte) (s : State) : Answer := substituteDec .decCont .start s

/-- DEC_DRAIN (R97). -/
def execDecDrain (_b : Byte) (s : State) : Answer := decElement s.dec.unit [] s

end Sys2Proof.Machine
end

