-- ==== Sys2Proof/Machine/Encode.lean ====
section
/-! DEFINITION. The encoder family (40_encoder.md). -/

namespace Sys2Proof.Machine

/-- ENC_1B (R74). -/
def execEnc1B (p : BitVec 7) (s : State) : Answer := encElement (group1 p) s

/-- ENC_2B (R75). -/
def execEnc2B (hi : BitVec 5) (lo : BitVec 6) (s : State) : Answer := encElement (group2 hi lo) s

/-- ENC_SUR (R76). -/
def execEncSur (_low : BitVec 11) (s : State) : Answer := substituteEnc .encSur s

/-- ENC_3B (R77). -/
def execEnc3B (hi : BitVec 4) (mid lo : BitVec 6) (s : State) : Answer :=
  encElement (group3 hi mid lo) s

/-- ENC_4B (R78). -/
def execEnc4B (top : BitVec 3) (hi mid lo : BitVec 6) (s : State) : Answer :=
  encElement (group4 top hi mid lo) s

/-- ENC_OVR (R79). -/
def execEncOvr (_w : Word) (s : State) : Answer := substituteEnc .encOvr s

end Sys2Proof.Machine
end

