-- ==== Sys2Proof/Machine/Frames.lean ====
section
/-! DEFINITION. The two frame commands (R68, R82, R98). -/

namespace Sys2Proof.Machine

/-- ENC_FRAME (R82). -/
def execEncFrame (n : Nat) (s : State) : Answer := startFrame .enc n (encFrameAfter n s) s

/-- DEC_FRAME (R98). -/
def execDecFrame (n : Nat) (s : State) : Answer := startFrame .dec n (decFrameAfter n s) s

end Sys2Proof.Machine
end

