-- ==== Sys2Proof/Machine/Dispatch.lean ====
section
/-! DEFINITION. The one dispatch from an instruction to its meaning, in the opcode table's order. -/

namespace Sys2Proof.Machine

def exec (i : Instr) (s : State) : Host.Outcome State Fault Refusal :=
  match i with
  | .enc1B p => Sys2Proof.Machine.execEnc1B p s
  | .enc2B hi lo => Sys2Proof.Machine.execEnc2B hi lo s
  | .encSur low => Sys2Proof.Machine.execEncSur low s
  | .enc3B hi mid lo => Sys2Proof.Machine.execEnc3B hi mid lo s
  | .enc4B top hi mid lo => Sys2Proof.Machine.execEnc4B top hi mid lo s
  | .encOvr w => Sys2Proof.Machine.execEncOvr w s
  | .encFrame n => Sys2Proof.Machine.execEncFrame n s
  | .decAscii p => Sys2Proof.Machine.execDecAscii p s
  | .decLead2 p => Sys2Proof.Machine.execDecLead2 p s
  | .decLead2Trunc p => Sys2Proof.Machine.execDecLead2Trunc p s
  | .decLead3 p => Sys2Proof.Machine.execDecLead3 p s
  | .decLead3Trunc p => Sys2Proof.Machine.execDecLead3Trunc p s
  | .decLead4 p => Sys2Proof.Machine.execDecLead4 p s
  | .decLead4Trunc p => Sys2Proof.Machine.execDecLead4Trunc p s
  | .decStray p => Sys2Proof.Machine.execDecStray p s
  | .decBadlead p => Sys2Proof.Machine.execDecBadlead p s
  | .decCont p => Sys2Proof.Machine.execDecCont p s
  | .decContLast p => Sys2Proof.Machine.execDecContLast p s
  | .decBadcont b => Sys2Proof.Machine.execDecBadcont b s
  | .decDrain b => Sys2Proof.Machine.execDecDrain b s
  | .decFrame n => Sys2Proof.Machine.execDecFrame n s

end Sys2Proof.Machine
end

