-- ==== Sys2Proof/Machine/FetchUnit.lean ====
section
/-! DEFINITION. What an engine's turn fetches: the oldest element of its input channel, when its step
is enabled (R73, R83). -/

namespace Sys2Proof.Machine

/-- The word that selects the encoder's step, if the step is enabled (R73). -/
def fetchEnc (s : State) : Option Fetch :=
  if EncReady s then s.enc.input.head?.map Fetch.word else none

/-- The byte and decoder state that select the decoder's step, if the step is enabled (R83). -/
def fetchDec (s : State) : Option Fetch :=
  if DecReady s then
    s.dec.input.head?.map (Fetch.byte s.dec.unit.mode s.dec.rem s.dec.unit.bits s.dec.unit.exp)
  else none

/-- The fetch of either engine. -/
def fetch (s : State) : Engine → Option Fetch
  | .enc => fetchEnc s
  | .dec => fetchDec s

/-- `s` with the encoder about to run the word `w`: `w` at the head of `ENC_IN`, a frame in progress,
room in `ENC_OUT`, and the encoder's turn next. -/
def placeWord (w : Word) (s : State) : State :=
  (s.withEnc
    { active := true
      rem := max 1 s.enc.rem
      input := w :: s.enc.input.tail
      output := if s.enc.output.length + 4 ≤ s.cfg.encOutDepth then s.enc.output else [] }).withPending
    (.turn .enc :: s.pending)

/-- `s` with the decoder about to run the byte `b` as a unit's first byte: `b` at the head of
`DEC_IN`, a frame with at least four bytes left, `START`, room in `DEC_OUT`, and the decoder's turn
next. -/
def placeByte (b : Byte) (s : State) : State :=
  (s.withDec
    { active := true
      rem := max 4 s.dec.rem
      unit := UnitRegs.clear .start
      input := b :: s.dec.input.tail
      output := if s.dec.output.length + 1 ≤ s.cfg.decOutDepth then s.dec.output else [] }).withPending
    (.turn .dec :: s.pending)

/-- The placement for either element width of the opcode table (log 6). -/
def placeTableWord (s : State) (nbits w : Nat) : State :=
  match nbits with
  | 32 => placeWord (BitVec.ofNat 32 w) s
  | 8 => placeByte (BitVec.ofNat 8 w) s
  | _ => s

end Sys2Proof.Machine
end

