-- ==== Sys2Proof/Machine/HostSide.lean ====
section
/-! DEFINITION. The host's actions on the channels and busy bits (R31, R32), and the hardware reset
(R133, R134). -/

namespace Sys2Proof.Machine

/-- The host pushes a word into `ENC_IN`; a full channel refuses it (R32, R120). -/
def pushEnc (w : Word) (s : State) : Answer :=
  if s.enc.input.length < s.cfg.encInDepth then
    .next (s.withEnc { s.enc with input := s.enc.input ++ [w] })
  else .refused (.pushToFullChannel .enc)

/-- The host pushes a byte into `DEC_IN`; a full channel refuses it (R32, R120). -/
def pushDec (b : Byte) (s : State) : Answer :=
  if s.dec.input.length < s.cfg.decInDepth then
    .next (s.withDec { s.dec with input := s.dec.input ++ [b] })
  else .refused (.pushToFullChannel .dec)

/-- The host pops the oldest byte of `ENC_OUT`; an empty channel refuses it (R32, R120). -/
def popEnc (s : State) : Answer :=
  match s.enc.output with
  | [] => .refused (.popFromEmptyChannel .enc)
  | b :: rest =>
    .next ((s.withEnc { s.enc with output := rest }).withHost
      { s.host with encGot := s.host.encGot ++ [b] })

/-- The host pops the oldest word of `DEC_OUT`; an empty channel refuses it (R32, R120). -/
def popDec (s : State) : Answer :=
  match s.dec.output with
  | [] => .refused (.popFromEmptyChannel .dec)
  | w :: rest =>
    .next ((s.withDec { s.dec with output := rest }).withHost
      { s.host with decGot := s.host.decGot ++ [w] })

/-- The host reads `E.active` (R31). -/
def readEncBusy (s : State) : Answer :=
  .next (s.withHost { s.host with encBusy := some (s.busy .enc) })

/-- The host reads `D.active` (R31). -/
def readDecBusy (s : State) : Answer :=
  .next (s.withHost { s.host with decBusy := some (s.busy .dec) })

/-- Hardware reset: every register at its value of R35 and all four channels empty, whatever frame was
in progress (R133, R134). What the host already popped stays with the host. -/
def hardwareReset (s : State) : Answer :=
  .next ((s.withEnc Encoder.reset).withDec Decoder.reset)

end Sys2Proof.Machine
end

