-- ==== Sys2Proof/Machine/Step.lean ====
section
/-! DEFINITION. One step: the agent the schedule names moves; an engine's turn runs the operation its
fetch selects, or waits when its step is not enabled (R17, R18, R73, R83). -/

namespace Sys2Proof.Machine

/-- Run the operation a fetch selects. -/
def runFetch (f : Fetch) (s : State) : Answer :=
  match decode f with
  | .ok i => exec i s
  | .error r => .refused (.noOperation r)

/-- An engine's turn. -/
def engineTurn (e : Engine) (s : State) : Answer :=
  match fetch s e with
  | none => .next s
  | some f => runFetch f s

/-- One scheduled move. -/
def runEvent (ev : Event) (s : State) : Answer :=
  match ev with
  | .turn e => engineTurn e s
  | .encCommand n => runFetch (.encCommand n) s
  | .decCommand n => runFetch (.decCommand n) s
  | .pushEnc w => pushEnc w s
  | .pushDec b => pushDec b s
  | .popEnc => popEnc s
  | .popDec => popDec s
  | .readEncBusy => readEncBusy s
  | .readDecBusy => readDecBusy s
  | .hardwareReset => hardwareReset s

/-- One step of the machine. With nothing scheduled, a freely chosen engine has the turn (R18). -/
def step (s : State) : Host.Outcome State Fault Refusal :=
  match s.pending with
  | [] => engineTurn (Config.freeTurn s.turns) s.tick
  | ev :: rest => runEvent ev (s.withPending rest)

/-- `s` with the word or byte `w` placed so that the next step runs it (log 6). -/
def State.withFetchWord (s : State) (nbits w : Nat) : State := placeTableWord s nbits w

end Sys2Proof.Machine
end

