-- ==== Sys2Proof/Machine/FrameLevel.lean ====
section
/-! DEFINITION. The frame-level functions the spec gives beside the steps: `EncodeCP` (R72),
`Encode` (R80) and `Decode` (R99), written from the document's own shifts, masks and tests (R37, R53,
R55). The machine does not call them; statements compare its runs with them. -/

namespace Sys2Proof.Machine

/-- The low byte of a marker ORed with a masked field of a word (R37 (3), R55). -/
def fieldByte (marker : Word) (w : Word) (shift : Nat) (mask : Word) : Byte :=
  (marker ||| ((w >>> shift) &&& mask)).setWidth 8

/-- `EncodeCP(w)` (R57, R72, R74 to R79). -/
def encodeCP (w : Word) : List Byte :=
  if bitw w ≤ 7 then [w.setWidth 8]
  else if bitw w ≤ 11 then [fieldByte 0xC0#32 w 6 0x1F#32, fieldByte 0x80#32 w 0 0x3F#32]
  else if bitw w ≤ 16 then
    if isSurrogate w.toNat then replBytes
    else
      [fieldByte 0xE0#32 w 12 0x0F#32, fieldByte 0x80#32 w 6 0x3F#32, fieldByte 0x80#32 w 0 0x3F#32]
  else if bitw w ≤ 21 ∧ w.toNat ≤ 0x10FFFF then
    [fieldByte 0xF0#32 w 18 0x07#32, fieldByte 0x80#32 w 12 0x3F#32, fieldByte 0x80#32 w 6 0x3F#32,
      fieldByte 0x80#32 w 0 0x3F#32]
  else replBytes

/-- `Encode(s)` (R80). -/
def encodeFrame : List Word → List Byte
  | [] => []
  | w :: t => encodeCP w ++ encodeFrame t

/-- The word a completed unit emits, under either setting of `DEC_VALIDATE` (R95, R110). The last case
of the length is `D.exp = 21` (R26, R28). -/
def completedWord (validate : Bool) (exp : Count5) (v : Word) : Word :=
  if validate && !valid v (if exp = 11#5 then 2 else if exp = 16#5 then 3 else 4) then replCp else v

/-- One step of `Decode`: the unit registers and the emission that the byte `b` leaves when `rem`
bytes remain, `b` included (R59 to R61, R85 to R97). -/
def decodeStep (validate : Bool) (u : UnitRegs) (rem : Nat) (b : Byte) : UnitRegs × List Word :=
  match u.mode with
  | .start =>
    if b &&& 0x80#8 = 0#8 then (u, [b.setWidth 32])
    else if b >>> 5 = 0b110#8 then
      if 2 ≤ rem then (⟨.cont, (b &&& 0x1F#8).setWidth 32, 5#5, 11#5⟩, [])
      else (UnitRegs.clear .drain, [replCp])
    else if b >>> 4 = 0b1110#8 then
      if 3 ≤ rem then (⟨.cont, (b &&& 0x0F#8).setWidth 32, 4#5, 16#5⟩, [])
      else (UnitRegs.clear .drain, [replCp])
    else if b >>> 3 = 0b11110#8 then
      if 4 ≤ rem then (⟨.cont, (b &&& 0x07#8).setWidth 32, 3#5, 21#5⟩, [])
      else (UnitRegs.clear .drain, [replCp])
    else (UnitRegs.clear .start, [replCp])
  | .cont =>
    if b &&& 0xC0#8 = 0x80#8 then
      let v : Word := (u.acc <<< 6) ||| (b &&& 0x3F#8).setWidth 32
      if u.bits.toNat + 6 < u.exp.toNat then
        ({ u with acc := v, bits := u.bits + 6#5 }, [])
      else (UnitRegs.clear .start, [completedWord validate u.exp v])
    else (UnitRegs.clear .start, [replCp])
  | .drain => (u, [])

/-- `Decode` from the unit registers `u`; the bytes that remain are those of the list (R99). -/
def decodeFrom (validate : Bool) (u : UnitRegs) : List Byte → List Word
  | [] => []
  | b :: bs =>
    (decodeStep validate u (bs.length + 1) b).2
      ++ decodeFrom validate (decodeStep validate u (bs.length + 1) b).1 bs

/-- `Decode(bs)` (R99). -/
def decodeFrame (validate : Bool) (bs : List Byte) : List Word :=
  decodeFrom validate (UnitRegs.clear .start) bs

/-- A legal code point: at most 0x10FFFF and outside the surrogates (Glossary, R113). -/
abbrev LegalCodePoint (c : Word) : Prop := c.toNat ≤ 0x10FFFF ∧ ¬ isSurrogate c.toNat

/-- `f` of R115: a legal code point is itself, any other word is U+FFFD. -/
def legalised (c : Word) : Word := if LegalCodePoint c then c else 0xFFFD#32

end Sys2Proof.Machine
end

