-- ==== Sys2Proof/Safety.lean ====
section
/-! DEFINITION. What holds of a state between steps (10_state.md section 3, R8, R12, R21, R41), and the
terms the statements use about instructions, events and runs. -/

namespace Sys2Proof.Machine

/-- The pairs `(D.exp, D.bits)` of an open unit (R28). -/
def openCounts : List (Nat × Nat) := [(11, 5), (16, 4), (16, 10), (21, 3), (21, 9), (21, 15)]

/-- The unit registers and the bytes left are as R27, R28, R29 and R97 say. -/
abbrev UnitInv (u : UnitRegs) (rem : Nat) : Prop :=
  (u.mode ≠ .cont → u.acc = 0#32 ∧ u.bits = 0#5 ∧ u.exp = 0#5)
  ∧ (u.mode = .cont → (u.exp.toNat, u.bits.toNat) ∈ openCounts ∧ u.acc.toNat < 2 ^ u.bits.toNat
      ∧ (u.exp.toNat - u.bits.toNat) / 6 ≤ rem)
  ∧ (u.mode = .drain → rem ≤ 2)

/-- A frame is in progress exactly while elements of it remain, and `X.rem` fits its `LEN_W` bits
(R11, R21). -/
abbrev CursorInv (active : Bool) (rem maxFrame : Nat) : Prop :=
  (active = true ↔ 1 ≤ rem) ∧ rem ≤ maxFrame

/-- The invariant of the machine. -/
abbrev State.Inv (s : State) : Prop :=
  s.cfg.Valid
  ∧ CursorInv s.enc.active s.enc.rem s.cfg.maxFrame
  ∧ CursorInv s.dec.active s.dec.rem s.cfg.maxFrame
  ∧ UnitInv s.dec.unit s.dec.rem
  ∧ s.enc.input.length ≤ s.cfg.encInDepth ∧ s.enc.output.length ≤ s.cfg.encOutDepth
  ∧ s.dec.input.length ≤ s.cfg.decInDepth ∧ s.dec.output.length ≤ s.cfg.decOutDepth
  ∧ s.dec.output.all (fun w => decide (w.toNat < 2 ^ 21)) = true

/-- An event is one of the four host protocol violations of R120 at a state. -/
abbrev Violation (s : State) : Event → Prop
  | .turn _ => False
  | .encCommand n => s.enc.active = true ∨ s.cfg.maxFrame < n
  | .decCommand n => s.dec.active = true ∨ s.cfg.maxFrame < n
  | .pushEnc _ => s.cfg.encInDepth ≤ s.enc.input.length
  | .pushDec _ => s.cfg.decInDepth ≤ s.dec.input.length
  | .popEnc => s.enc.output = []
  | .popDec => s.dec.output = []
  | .readEncBusy => False
  | .readDecBusy => False
  | .hardwareReset => False

/-- The three families of the opcode table. -/
inductive Family where
  | encoder
  | decoder
  | command
  deriving DecidableEq, Repr

/-- The family of an instruction: the six operations of 40_encoder.md that take a word, the thirteen
of 41_decoder.md that take a byte, and the two frame commands. -/
def familyOf : Instr → Family
  | .enc1B _ => .encoder
  | .enc2B _ _ => .encoder
  | .encSur _ => .encoder
  | .enc3B _ _ _ => .encoder
  | .enc4B _ _ _ _ => .encoder
  | .encOvr _ => .encoder
  | .encFrame _ => .command
  | .decAscii _ => .decoder
  | .decLead2 _ => .decoder
  | .decLead2Trunc _ => .decoder
  | .decLead3 _ => .decoder
  | .decLead3Trunc _ => .decoder
  | .decLead4 _ => .decoder
  | .decLead4Trunc _ => .decoder
  | .decStray _ => .decoder
  | .decBadlead _ => .decoder
  | .decCont _ => .decoder
  | .decContLast _ => .decoder
  | .decBadcont _ => .decoder
  | .decDrain _ => .decoder
  | .decFrame _ => .command

/-- The operations that reject a lead for want of bytes (R87, R89, R91). -/
def isTruncating : Instr → Bool
  | .decLead2Trunc _ => true
  | .decLead3Trunc _ => true
  | .decLead4Trunc _ => true
  | _ => false

/-- The decoder operations that emit nothing (R103). -/
def isSilent : Instr → Bool
  | .decLead2 _ => true
  | .decLead3 _ => true
  | .decLead4 _ => true
  | .decCont _ => true
  | .decDrain _ => true
  | _ => false

/-- The decoder operations that take in a byte of a well-formed unit: no rejection, no truncation and
no draining (R115). -/
def isAccepting : Instr → Bool
  | .decAscii _ => true
  | .decLead2 _ => true
  | .decLead3 _ => true
  | .decLead4 _ => true
  | .decCont _ => true
  | .decContLast _ => true
  | _ => false

/-- Two fetches carry the same element or the same command. -/
def sameElement : Fetch → Fetch → Prop
  | .word w, .word w' => w = w'
  | .byte _ _ _ _ b, .byte _ _ _ _ b' => b = b'
  | .encCommand n, .encCommand n' => n = n'
  | .decCommand n, .decCommand n' => n = n'
  | _, _ => False

/-- The operations a frame's bytes select, in order (R99: the mode and counters of each step are those
the step before left). -/
def frameOps (validate : Bool) (u : UnitRegs) : List Byte → List (Except Reject Instr)
  | [] => []
  | b :: bs =>
    decode (.byte u.mode (bs.length + 1) u.bits u.exp b)
      :: frameOps validate (decodeStep validate u (bs.length + 1) b).1 bs

/-- The length of the unit a byte format begins (R62). -/
def unitLengthOf : ByteFormat → Option Nat
  | .ascii => some 1
  | .lead2 => some 2
  | .lead3 => some 3
  | .lead4 => some 4
  | .cont => none
  | .bad => none

/-- The elements an event pushes into `ENC_IN`. -/
def pushedWords : Event → List Word
  | .pushEnc w => [w]
  | _ => []

/-- The elements an event pushes into `DEC_IN`. -/
def pushedBytes : Event → List Byte
  | .pushDec b => [b]
  | _ => []

/-- Every byte the encoder has emitted since reset: those the host popped, then those still in
`ENC_OUT`. -/
def State.encProduced (s : State) : List Byte := s.host.encGot ++ s.enc.output

/-- Every word the decoder has emitted since reset: those the host popped, then those still in
`DEC_OUT`. -/
def State.decProduced (s : State) : List Word := s.host.decGot ++ s.dec.output

/-- `k` steps of the machine, stopping at the first that does not answer a next state. -/
def runSteps : Nat → State → Answer
  | 0, s => .next s
  | k + 1, s =>
    match step s with
    | .next t => runSteps k t
    | .fault r => .fault r
    | .refused r => .refused r

end Sys2Proof.Machine
end

