-- ==== Sys2Proof/Certificates/Slice0/Obligations.lean ====
section
/-! DEFINITION. The statements for the provers, from the spec's numbered rules. A statement over every
state holds for every value of the build-time parameters, since `State` carries them. -/

open Sys2Proof Sys2Proof.Machine

/-! ## Reset and the invariant -/

/-- R35: every register at its reset value, every channel empty, no frame in progress. -/
def Obligations.ResetClearsEveryRegisterAndChannel : Prop :=
  State.reset.enc.active = false ∧ State.reset.enc.rem = 0
  ∧ State.reset.dec.active = false ∧ State.reset.dec.rem = 0
  ∧ State.reset.dec.unit.mode = .start ∧ State.reset.dec.unit.mode.code = 0b00#2
  ∧ State.reset.dec.unit.acc = 0#32 ∧ State.reset.dec.unit.bits = 0#5
  ∧ State.reset.dec.unit.exp = 0#5
  ∧ State.reset.enc.input = [] ∧ State.reset.enc.output = []
  ∧ State.reset.dec.input = [] ∧ State.reset.dec.output = []

/-- Hardware reset, taken in any state and so in the middle of any frame, leaves the registers at
their reset values and four empty channels; an engine without a frame in progress has no step, so it
must first be given a frame command. That the channels are empty after a reset inside a frame is what
R133 and R134 say, where 93 item 8 would allow any contents (log 7); that the parameters and the host's
view stay is the model's (logs 4 and 7). -/
def Obligations.HardwareResetFromAnyState : Prop :=
  (∀ (s : State) (rest : List Event), s.pending = .hardwareReset :: rest →
    step s = .next
      { s with
        pending := rest
        enc := { active := false, rem := 0, input := [], output := [] }
        dec :=
          { active := false, rem := 0
            unit := { mode := .start, acc := 0#32, bits := 0#5, exp := 0#5 }
            input := [], output := [] } })
  ∧ ∀ (e : Engine) (s t : State), s.busy e = false → engineTurn e s = .next t →
    t.enc = s.enc ∧ t.dec = s.dec

/-- The invariant holds at reset (R27 to R29 there; the channel depths of the reset configuration are
the model's choice, log 2). -/
def Obligations.ResetMeetsTheInvariant : Prop := State.reset.Inv

/-- R27, R28, R29: between steps the unit registers are clear outside `CONT`, a legal pair of counters
with a bounded accumulator inside it, and the frame holds the bytes an open unit needs. Every step
keeps this, with the cursor bounds of R21, the channel depths of R12 and the 21-bit outputs of R41. -/
def Obligations.EveryStepKeepsTheInvariant : Prop :=
  ∀ s t : State, s.Inv → step s = .next t → t.Inv

/-! ## Selection, decoding and encoding -/

/-- Decoding what `encode` writes gives the instruction back, for every well-formed instruction. -/
def Obligations.DecodeOfEncodeIsTheInstruction : Prop :=
  ∀ i : Instr, i.WellFormed → decode (encode i) = .ok i

/-- What decodes is well-formed and carries the element it was decoded from: no bit of an element is
dropped. -/
def Obligations.DecodedInstructionCarriesItsElement : Prop :=
  ∀ (f : Fetch) (i : Instr), decode f = .ok i → i.WellFormed ∧ sameElement (encode i) f

/-- Elements written out from the tables of R52, R53, R57 and R59 to R61. -/
def Obligations.WrittenOutElementsDecode : Prop :=
  decode (.word 0b00000000000000000000000000100100#32) = .ok (.enc1B 0b0100100#7)
  ∧ decode (.word 0b00000000000000000000011110000001#32) = .ok (.enc2B 0b11110#5 0b000001#6)
  ∧ decode (.word 0b00000000000000001101100000000101#32) = .ok (.encSur 0b00000000101#11)
  ∧ decode (.word 0b00000000000000000010000010101100#32)
      = .ok (.enc3B 0b0010#4 0b000010#6 0b101100#6)
  ∧ decode (.word 0b00000000000000011111011000000000#32)
      = .ok (.enc4B 0b000#3 0b011111#6 0b011000#6 0b000000#6)
  ∧ decode (.byte .start 9 0#5 0#5 0b11010110#8) = .ok (.decLead2 0b10110#5)
  ∧ decode (.byte .start 2 0#5 0#5 0b11101011#8) = .ok (.decLead3Trunc 0b1011#4)
  ∧ decode (.byte .start 4 0#5 0#5 0b11110101#8) = .ok (.decLead4 0b101#3)
  ∧ decode (.byte .cont 3 9#5 21#5 0b10011000#8) = .ok (.decCont 0b011000#6)
  ∧ decode (.byte .cont 3 15#5 21#5 0b10011000#8) = .ok (.decContLast 0b011000#6)

/-- A step runs the operation that the scheduled engine's fetch selects, in the state whose schedule
has moved on, or waits when the engine's step is not enabled; a frame command runs likewise; with an
empty schedule some engine has the turn, whichever the free value names. The schedule, the free turn
and the wait are the model's (logs 1, 3 and 5). -/
def Obligations.StepRunsTheSelectedInstruction : Prop :=
  (∀ (s : State) (rest : List Event) (w : Word) (ws : List Word),
    s.pending = .turn .enc :: rest → EncReady s → s.enc.input = w :: ws →
    ∃ i, decode (.word w) = .ok i ∧ step s = exec i { s with pending := rest })
  ∧ (∀ (s : State) (rest : List Event) (b : Byte) (bs : List Byte) (i : Instr),
    s.pending = .turn .dec :: rest → DecReady s → s.dec.input = b :: bs →
    decode (.byte s.dec.unit.mode s.dec.rem s.dec.unit.bits s.dec.unit.exp b) = .ok i →
    step s = exec i { s with pending := rest })
  ∧ (∀ (s : State) (rest : List Event) (n : Nat), s.pending = .encCommand n :: rest →
    step s = exec (.encFrame n) { s with pending := rest })
  ∧ (∀ (s : State) (rest : List Event) (n : Nat), s.pending = .decCommand n :: rest →
    step s = exec (.decFrame n) { s with pending := rest })
  ∧ (∀ (s : State) (rest : List Event), s.pending = .turn .enc :: rest → ¬ EncReady s →
    step s = .next { s with pending := rest })
  ∧ (∀ (s : State) (rest : List Event), s.pending = .turn .dec :: rest → ¬ DecReady s →
    step s = .next { s with pending := rest })
  ∧ ∀ s : State, s.pending = [] →
    ∃ e : Engine, step s = engineTurn e { s with turns := s.turns + 1 }

/-- R71: `BITW` is one more than the index of the most significant 1 bit, 0 for 0, and equals
`floor(log2) + 1`. -/
def Obligations.BitwIsTheBitWidth : Prop :=
  (∀ w : Word, bitw w ≤ 32)
  ∧ bitw 0#32 = 0
  ∧ (∀ w : Word, w ≠ 0#32 → ∃ i : Nat, bitw w = 1 + i ∧ w.getLsbD i = true
      ∧ ∀ j : Nat, i < j → w.getLsbD j = false)
  ∧ (∀ w : Word, w ≠ 0#32 → bitw w = Nat.log2 w.toNat + 1)
  ∧ bitw 1#32 = 1 ∧ bitw 0x7F#32 = 7 ∧ bitw 0x80#32 = 8 ∧ bitw 0xFFFFFFFF#32 = 32

/-- R58: the six encoder classes are these value ranges, they cover every word, and `BITW(w) <= n`
holds exactly when `w <= 2^n - 1`. -/
def Obligations.EncoderClassesAreValueRanges : Prop :=
  (∀ (w : Word) (n : Nat), bitw w ≤ n ↔ w.toNat ≤ 2 ^ n - 1)
  ∧ ∀ w : Word,
    ((∃ p, decode (.word w) = .ok (.enc1B p)) ↔ w.toNat ≤ 0x7F)
    ∧ ((∃ hi lo, decode (.word w) = .ok (.enc2B hi lo)) ↔ 0x80 ≤ w.toNat ∧ w.toNat ≤ 0x7FF)
    ∧ ((∃ hi mid lo, decode (.word w) = .ok (.enc3B hi mid lo)) ↔
        (0x800 ≤ w.toNat ∧ w.toNat ≤ 0xD7FF) ∨ (0xE000 ≤ w.toNat ∧ w.toNat ≤ 0xFFFF))
    ∧ ((∃ low, decode (.word w) = .ok (.encSur low)) ↔ 0xD800 ≤ w.toNat ∧ w.toNat ≤ 0xDFFF)
    ∧ ((∃ top hi mid lo, decode (.word w) = .ok (.enc4B top hi mid lo)) ↔
        0x10000 ≤ w.toNat ∧ w.toNat ≤ 0x10FFFF)
    ∧ ((∃ v, decode (.word w) = .ok (.encOvr v)) ↔ 0x110000 ≤ w.toNat)

/-- R53: the six byte formats by mask and match, by value, and by the document's shift tests, and a
byte of a format with a payload field is the format's match with that field in its low bits. -/
def Obligations.ByteFormatsByMaskMatchAndValue : Prop :=
  ∀ b : Byte,
    (formatOf b = .ascii ↔ b &&& 0x80#8 = 0x00#8) ∧ (formatOf b = .ascii ↔ b.toNat ≤ 0x7F)
    ∧ (formatOf b = .cont ↔ b &&& 0xC0#8 = 0x80#8)
    ∧ (formatOf b = .cont ↔ 0x80 ≤ b.toNat ∧ b.toNat ≤ 0xBF)
    ∧ (formatOf b = .lead2 ↔ b &&& 0xE0#8 = 0xC0#8) ∧ (formatOf b = .lead2 ↔ b >>> 5 = 0b110#8)
    ∧ (formatOf b = .lead2 ↔ 0xC0 ≤ b.toNat ∧ b.toNat ≤ 0xDF)
    ∧ (formatOf b = .lead3 ↔ b &&& 0xF0#8 = 0xE0#8) ∧ (formatOf b = .lead3 ↔ b >>> 4 = 0b1110#8)
    ∧ (formatOf b = .lead3 ↔ 0xE0 ≤ b.toNat ∧ b.toNat ≤ 0xEF)
    ∧ (formatOf b = .lead4 ↔ b &&& 0xF8#8 = 0xF0#8) ∧ (formatOf b = .lead4 ↔ b >>> 3 = 0b11110#8)
    ∧ (formatOf b = .lead4 ↔ 0xF0 ≤ b.toNat ∧ b.toNat ≤ 0xF7)
    ∧ (formatOf b = .bad ↔ b &&& 0xF8#8 = 0xF8#8) ∧ (formatOf b = .bad ↔ 0xF8 ≤ b.toNat)
    ∧ (formatOf b = .ascii → b = 0x00#8 ||| (b.extractLsb' 0 7).setWidth 8)
    ∧ (formatOf b = .cont → b = 0x80#8 ||| (b.extractLsb' 0 6).setWidth 8)
    ∧ (formatOf b = .lead2 → b = 0xC0#8 ||| (b.extractLsb' 0 5).setWidth 8)
    ∧ (formatOf b = .lead3 → b = 0xE0#8 ||| (b.extractLsb' 0 4).setWidth 8)
    ∧ (formatOf b = .lead4 → b = 0xF0#8 ||| (b.extractLsb' 0 3).setWidth 8)

/-- R59: the decoder's selection in `START`, row by row, for every byte and every `D.rem >= 1`. -/
def Obligations.SelectionInStart : Prop :=
  ∀ (b : Byte) (rem : Nat) (bits exp : Count5), 1 ≤ rem →
    (formatOf b = .ascii →
      decode (.byte .start rem bits exp b) = .ok (.decAscii (b.extractLsb' 0 7)))
    ∧ (formatOf b = .lead2 → 2 ≤ rem →
      decode (.byte .start rem bits exp b) = .ok (.decLead2 (b.extractLsb' 0 5)))
    ∧ (formatOf b = .lead2 → rem = 1 →
      decode (.byte .start rem bits exp b) = .ok (.decLead2Trunc (b.extractLsb' 0 5)))
    ∧ (formatOf b = .lead3 → 3 ≤ rem →
      decode (.byte .start rem bits exp b) = .ok (.decLead3 (b.extractLsb' 0 4)))
    ∧ (formatOf b = .lead3 → rem = 1 ∨ rem = 2 →
      decode (.byte .start rem bits exp b) = .ok (.decLead3Trunc (b.extractLsb' 0 4)))
    ∧ (formatOf b = .lead4 → 4 ≤ rem →
      decode (.byte .start rem bits exp b) = .ok (.decLead4 (b.extractLsb' 0 3)))
    ∧ (formatOf b = .lead4 → rem = 1 ∨ rem = 2 ∨ rem = 3 →
      decode (.byte .start rem bits exp b) = .ok (.decLead4Trunc (b.extractLsb' 0 3)))
    ∧ (formatOf b = .cont →
      decode (.byte .start rem bits exp b) = .ok (.decStray (b.extractLsb' 0 6)))
    ∧ (formatOf b = .bad →
      decode (.byte .start rem bits exp b) = .ok (.decBadlead (b.extractLsb' 0 3)))

/-- R60: the decoder's selection in `CONT`, row by row; the sum `D.bits + 6` never passes `D.exp` in a
state that meets R28. -/
def Obligations.SelectionInCont : Prop :=
  (∀ (b : Byte) (rem : Nat) (bits exp : Count5), 1 ≤ rem →
    (formatOf b = .cont → bits.toNat + 6 < exp.toNat →
      decode (.byte .cont rem bits exp b) = .ok (.decCont (b.extractLsb' 0 6)))
    ∧ (formatOf b = .cont → bits.toNat + 6 = exp.toNat →
      decode (.byte .cont rem bits exp b) = .ok (.decContLast (b.extractLsb' 0 6)))
    ∧ (formatOf b ≠ .cont → decode (.byte .cont rem bits exp b) = .ok (.decBadcont b)))
  ∧ ∀ (u : UnitRegs) (rem : Nat), UnitInv u rem → u.mode = .cont →
    ¬ u.exp.toNat < u.bits.toNat + 6

/-! ## The encoder family -/

/-- R74: ENC_1B. -/
def Obligations.Enc1BEmitsTheWordAsOneByte : Prop :=
  (∀ w : Word, bitw w ≤ 7 ↔ w.toNat ≤ 0x7F)
  ∧ (∀ (w : Word) (s : State), bitw w ≤ 7 → EncReady s →
    encodeCP w = [w.setWidth 8] ∧ (w.setWidth 8).getLsbD 7 = false
    ∧ ∃ i, decode (.word w) = .ok i ∧ exec i s = .next (encAfter [w.setWidth 8] s))
  ∧ (∀ (p : BitVec 7) (s : State), EncReady s →
    exec (.enc1B p) s = .next (encAfter [p.setWidth 8] s))
  ∧ encodeCP 0#32 = [0x00#8] ∧ encodeCP 0x7F#32 = [0x7F#8] ∧ encodeFrame [0x24#32] = [0x24#8]

/-- R75: ENC_2B. -/
def Obligations.Enc2BEmitsTwoMarkedBytes : Prop :=
  (∀ w : Word, 8 ≤ bitw w ∧ bitw w ≤ 11 ↔ 0x80 ≤ w.toNat ∧ w.toNat ≤ 0x7FF)
  ∧ (∀ (w : Word) (s : State), 8 ≤ bitw w → bitw w ≤ 11 → EncReady s →
    encodeCP w
      = [0xC0#8 ||| (w.extractLsb' 6 5).setWidth 8, 0x80#8 ||| (w.extractLsb' 0 6).setWidth 8]
    ∧ 0xC2 ≤ (0xC0#8 ||| (w.extractLsb' 6 5).setWidth 8).toNat
    ∧ (0xC0#8 ||| (w.extractLsb' 6 5).setWidth 8).toNat ≤ 0xDF
    ∧ ∃ i, decode (.word w) = .ok i ∧ exec i s = .next (encAfter (encodeCP w) s))
  ∧ (∀ (hi : BitVec 5) (lo : BitVec 6) (s : State), EncReady s →
    exec (.enc2B hi lo) s
      = .next (encAfter [0xC0#8 ||| hi.setWidth 8, 0x80#8 ||| lo.setWidth 8] s))
  ∧ encodeCP 0x80#32 = [0xC2#8, 0x80#8] ∧ encodeCP 0x7FF#32 = [0xDF#8, 0xBF#8]
  ∧ encodeFrame [0xA2#32] = [0xC2#8, 0xA2#8]

/-- R76: ENC_SUR. -/
def Obligations.EncSurEmitsTheMarker : Prop :=
  (∀ (w : Word) (s : State), 12 ≤ bitw w → bitw w ≤ 16 → 0xD800 ≤ w.toNat → w.toNat ≤ 0xDFFF →
    EncReady s →
    encodeCP w = [0xEF#8, 0xBF#8, 0xBD#8]
    ∧ decode (.word w) = .ok (.encSur (w.extractLsb' 0 11))
    ∧ exec (.encSur (w.extractLsb' 0 11)) s = .next (encAfter [0xEF#8, 0xBF#8, 0xBD#8] s))
  ∧ (∀ (low : BitVec 11) (s : State), EncReady s →
    exec (.encSur low) s = .next (encAfter [0xEF#8, 0xBF#8, 0xBD#8] s))
  ∧ encodeCP 0xD800#32 = [0xEF#8, 0xBF#8, 0xBD#8] ∧ encodeCP 0xDFFF#32 = [0xEF#8, 0xBF#8, 0xBD#8]
  ∧ (∃ hi mid lo, decode (.word 0xD7FF#32) = .ok (.enc3B hi mid lo))
  ∧ (∃ hi mid lo, decode (.word 0xE000#32) = .ok (.enc3B hi mid lo))
  ∧ encodeFrame [0xD800#32] = [0xEF#8, 0xBF#8, 0xBD#8]

/-- R77: ENC_3B. -/
def Obligations.Enc3BEmitsThreeMarkedBytes : Prop :=
  (∀ w : Word, (12 ≤ bitw w ∧ bitw w ≤ 16 ∧ ¬ (0xD800 ≤ w.toNat ∧ w.toNat ≤ 0xDFFF)) ↔
    (0x800 ≤ w.toNat ∧ w.toNat ≤ 0xD7FF) ∨ (0xE000 ≤ w.toNat ∧ w.toNat ≤ 0xFFFF))
  ∧ (∀ (w : Word) (s : State), 12 ≤ bitw w → bitw w ≤ 16 →
    ¬ (0xD800 ≤ w.toNat ∧ w.toNat ≤ 0xDFFF) → EncReady s →
    encodeCP w
      = [0xE0#8 ||| (w.extractLsb' 12 4).setWidth 8, 0x80#8 ||| (w.extractLsb' 6 6).setWidth 8,
          0x80#8 ||| (w.extractLsb' 0 6).setWidth 8]
    ∧ ∃ i, decode (.word w) = .ok i ∧ exec i s = .next (encAfter (encodeCP w) s))
  ∧ (∀ (hi : BitVec 4) (mid lo : BitVec 6) (s : State), EncReady s →
    exec (.enc3B hi mid lo) s
      = .next (encAfter
          [0xE0#8 ||| hi.setWidth 8, 0x80#8 ||| mid.setWidth 8, 0x80#8 ||| lo.setWidth 8] s))
  ∧ encodeCP 0x800#32 = [0xE0#8, 0xA0#8, 0x80#8] ∧ encodeCP 0xFFFF#32 = [0xEF#8, 0xBF#8, 0xBF#8]
  ∧ encodeCP 0xD7FF#32 = [0xED#8, 0x9F#8, 0xBF#8] ∧ encodeCP 0xE000#32 = [0xEE#8, 0x80#8, 0x80#8]
  ∧ encodeCP 0xFFFD#32 = [0xEF#8, 0xBF#8, 0xBD#8] ∧ encodeCP 0xFFFE#32 = [0xEF#8, 0xBF#8, 0xBE#8]
  ∧ encodeFrame [0x20AC#32] = [0xE2#8, 0x82#8, 0xAC#8]

/-- R78: ENC_4B. -/
def Obligations.Enc4BEmitsFourMarkedBytes : Prop :=
  (∀ w : Word, (17 ≤ bitw w ∧ bitw w ≤ 21 ∧ w.toNat ≤ 0x10FFFF) ↔
    0x10000 ≤ w.toNat ∧ w.toNat ≤ 0x10FFFF)
  ∧ (∀ (w : Word) (s : State), 17 ≤ bitw w → bitw w ≤ 21 → w.toNat ≤ 0x10FFFF → EncReady s →
    encodeCP w
      = [0xF0#8 ||| (w.extractLsb' 18 3).setWidth 8, 0x80#8 ||| (w.extractLsb' 12 6).setWidth 8,
          0x80#8 ||| (w.extractLsb' 6 6).setWidth 8, 0x80#8 ||| (w.extractLsb' 0 6).setWidth 8]
    ∧ 0xF0 ≤ (0xF0#8 ||| (w.extractLsb' 18 3).setWidth 8).toNat
    ∧ (0xF0#8 ||| (w.extractLsb' 18 3).setWidth 8).toNat ≤ 0xF4
    ∧ ∃ i, decode (.word w) = .ok i ∧ exec i s = .next (encAfter (encodeCP w) s))
  ∧ (∀ (top : BitVec 3) (hi mid lo : BitVec 6) (s : State), EncReady s →
    exec (.enc4B top hi mid lo) s
      = .next (encAfter
          [0xF0#8 ||| top.setWidth 8, 0x80#8 ||| hi.setWidth 8, 0x80#8 ||| mid.setWidth 8,
            0x80#8 ||| lo.setWidth 8] s))
  ∧ encodeCP 0x10000#32 = [0xF0#8, 0x90#8, 0x80#8, 0x80#8]
  ∧ encodeCP 0x10FFFF#32 = [0xF4#8, 0x8F#8, 0xBF#8, 0xBF#8]
  ∧ encodeFrame [0x1F600#32] = [0xF0#8, 0x9F#8, 0x98#8, 0x80#8]

/-- R79: ENC_OVR. -/
def Obligations.EncOvrEmitsTheMarker : Prop :=
  (∀ (w : Word) (s : State), 0x10FFFF < w.toNat → EncReady s →
    encodeCP w = [0xEF#8, 0xBF#8, 0xBD#8] ∧ decode (.word w) = .ok (.encOvr w))
  ∧ (∀ (w : Word) (s : State), EncReady s →
    exec (.encOvr w) s = .next (encAfter [0xEF#8, 0xBF#8, 0xBD#8] s))
  ∧ encodeCP 0x110000#32 = [0xEF#8, 0xBF#8, 0xBD#8] ∧ encodeCP 0x1FFFFF#32 = [0xEF#8, 0xBF#8, 0xBD#8]
  ∧ encodeCP 0x200000#32 = [0xEF#8, 0xBF#8, 0xBD#8]
  ∧ encodeCP 0x80000000#32 = [0xEF#8, 0xBF#8, 0xBD#8]
  ∧ encodeCP 0xFFFFFFFF#32 = [0xEF#8, 0xBF#8, 0xBD#8]
  ∧ encodeFrame [0x110000#32] = [0xEF#8, 0xBF#8, 0xBD#8]

/-- ENC_FRAME. That a command on an active engine is refused as `frameWhileActive` also where its
count is above `MAX_FRAME` is the model's choice (log 8). -/
def Obligations.EncFrameStartsAFrameOrIsRefused : Prop :=
  (∀ (n : Nat) (s : State), s.enc.active = false → n ≤ s.cfg.maxFrame →
    exec (.encFrame n) s = .next { s with enc := { s.enc with rem := n, active := n != 0 } })
  ∧ (∀ (n : Nat) (s : State), s.enc.active = true →
    exec (.encFrame n) s = .refused (.frameWhileActive .enc))
  ∧ (∀ (n : Nat) (s : State), s.enc.active = false → s.cfg.maxFrame < n →
    exec (.encFrame n) s = .refused (.countAboveMaxFrame .enc))
  ∧ encodeFrame [] = []
  ∧ (∀ s t : State, s.enc.active = false → engineTurn .enc s = .next t →
    t.enc.input = s.enc.input)
  ∧ encodeFrame [0x2003E#32, 0x110000#32, 0x233B4#32]
      = [0xF0#8, 0xA0#8, 0x80#8, 0xBE#8, 0xEF#8, 0xBF#8, 0xBD#8, 0xF0#8, 0xA3#8, 0x8E#8, 0xB4#8]

/-- R73: the encoder's element step, and that `E` takes none where it is not enabled. The premise `1 <= E.rem` is what
R21 says of every element step, and the invariant gives it while `E.active` holds. -/
def Obligations.EncoderElementStep : Prop :=
  (∀ (s : State) (w : Word) (ws : List Word) (rest : List Event),
    s.pending = .turn .enc :: rest → s.enc.active = true → 1 ≤ s.enc.rem →
    s.enc.input = w :: ws → s.enc.output.length + 4 ≤ s.cfg.encOutDepth →
    step s = .next
      { s with
        pending := rest
        enc :=
          { active := s.enc.rem - 1 != 0
            rem := s.enc.rem - 1
            input := ws
            output := s.enc.output ++ encodeCP w } })
  ∧ ∀ (s t : State) (rest : List Event), s.pending = .turn .enc :: rest →
    s.enc.active = false ∨ s.enc.input = [] ∨ s.cfg.encOutDepth < s.enc.output.length + 4 →
    step s = .next t → t.enc = s.enc

/-- R63, R81: the encoder is total, its group's length depends on the value alone, and a frame's output
has between one and four bytes for each word. -/
def Obligations.EncoderIsTotalWithBoundedOutput : Prop :=
  (∀ w : Word, ∃ i, decode (.word w) = .ok i ∧ familyOf i = .encoder
    ∧ ∀ s : State, EncReady s → exec i s = .next (encAfter (encodeCP w) s))
  ∧ (∀ w : Word, (encodeCP w).length
      = if w.toNat ≤ 0x7F then 1 else if w.toNat ≤ 0x7FF then 2 else if w.toNat ≤ 0xFFFF then 3
        else if w.toNat ≤ 0x10FFFF then 4 else 3)
  ∧ ∀ ws : List Word, ws.length ≤ (encodeFrame ws).length
    ∧ (encodeFrame ws).length ≤ 4 * ws.length

/-- R80: `Encode` is the concatenation of its words' groups, and, whatever the schedule, what a frame
sends to `ENC_OUT` is `Encode` of the words it has taken, which are `n` words when the frame is
complete. `evs` is any interleaving of turns of both engines and host moves, with no other encoder
frame and no reset in it. -/
def Obligations.EncoderFrameOutputUnderAnySchedule : Prop :=
  encodeFrame [] = []
  ∧ (∀ (w : Word) (ws : List Word), encodeFrame (w :: ws) = encodeCP w ++ encodeFrame ws)
  ∧ ∀ (s t : State) (n : Nat) (evs rest : List Event),
    s.pending = .encCommand n :: (evs ++ rest) →
    (∀ ev ∈ evs, ev ≠ .hardwareReset ∧ ∀ m : Nat, ev ≠ .encCommand m) →
    runSteps (evs.length + 1) s = .next t →
    ∃ ws : List Word, s.enc.input ++ evs.flatMap pushedWords = ws ++ t.enc.input
      ∧ ws.length + t.enc.rem = n ∧ (t.enc.active = true ↔ t.enc.rem ≠ 0)
      ∧ t.encProduced = s.encProduced ++ encodeFrame ws

/-- A frame of `n` words completes after its command and exactly `n` encoder turns, with the words in
`ENC_IN` and room in `ENC_OUT`, and appends exactly `Encode` of the words. -/
def Obligations.EncoderFrameCompletesInItsTurns : Prop :=
  ∀ (s : State) (ws more : List Word) (rest : List Event),
    s.pending = .encCommand ws.length :: (List.replicate ws.length (.turn .enc) ++ rest) →
    s.enc.active = false → ws.length ≤ s.cfg.maxFrame → s.enc.input = ws ++ more →
    s.enc.output.length + 4 * ws.length ≤ s.cfg.encOutDepth →
    runSteps (ws.length + 1) s = .next
      { s with
        pending := rest
        enc := { active := false, rem := 0, input := more, output := s.enc.output ++ encodeFrame ws } }

/-! ## The decoder family -/

/-- R85: DEC_ASCII. -/
def Obligations.DecAsciiPassesTheByteThrough : Prop :=
  (∀ (b : Byte) (rem : Nat) (bits exp : Count5), 1 ≤ rem → b &&& 0x80#8 = 0#8 →
    decode (.byte .start rem bits exp b) = .ok (.decAscii (b.extractLsb' 0 7))
    ∧ (b.extractLsb' 0 7).setWidth 32 = b.setWidth 32)
  ∧ (∀ (p : BitVec 7) (s : State), DecReady s →
    exec (.decAscii p) s = .next (decAfter s.dec.unit [p.setWidth 32] s))
  ∧ ∀ v : Bool, decodeFrame v [0x00#8] = [0x00000000#32] ∧ decodeFrame v [0x7F#8] = [0x0000007F#32]
    ∧ decodeFrame v [0x41#8] = [0x41#32]

/-- R86: DEC_LEAD2. -/
def Obligations.DecLead2OpensATwoByteUnit : Prop :=
  (∀ (b : Byte) (rem : Nat) (bits exp : Count5), 2 ≤ rem → b >>> 5 = 0b110#8 →
    decode (.byte .start rem bits exp b) = .ok (.decLead2 (b.extractLsb' 0 5))
    ∧ (b.extractLsb' 0 5).setWidth 32 = (b &&& 0x1F#8).setWidth 32)
  ∧ (∀ (p : BitVec 5) (s : State), DecReady s →
    exec (.decLead2 p) s
      = .next (decAfter { mode := .cont, acc := p.setWidth 32, bits := 5#5, exp := 11#5 } [] s))
  ∧ decode (.byte .start 2 0#5 0#5 0xC0#8) = .ok (.decLead2 0#5)
  ∧ decode (.byte .start 2 0#5 0#5 0xC1#8) = .ok (.decLead2 1#5)
  ∧ ∀ v : Bool, decodeStep v (UnitRegs.clear .start) 2 0xC2#8
      = ({ mode := .cont, acc := 0x02#32, bits := 5#5, exp := 11#5 }, [])

/-- R87: DEC_LEAD2_TRUNC. -/
def Obligations.DecLead2TruncRejectsAndDrains : Prop :=
  (∀ (b : Byte) (bits exp : Count5), b >>> 5 = 0b110#8 →
    decode (.byte .start 1 bits exp b) = .ok (.decLead2Trunc (b.extractLsb' 0 5)))
  ∧ (∀ (p : BitVec 5) (s : State), DecReady s →
    exec (.decLead2Trunc p) s = .next
      (decAfter { mode := .drain, acc := 0#32, bits := 0#5, exp := 0#5 } [0x0000FFFD#32] s))
  ∧ (∀ (p : BitVec 5) (s t : State), DecReady s → s.dec.rem = 1 →
    exec (.decLead2Trunc p) s = .next t → t.dec.active = false ∧ t.dec.rem = 0)
  ∧ ∀ v : Bool, decodeFrame v [0x41#8, 0xC2#8] = [0x41#32, 0xFFFD#32]

/-- R88: DEC_LEAD3. -/
def Obligations.DecLead3OpensAThreeByteUnit : Prop :=
  (∀ (b : Byte) (rem : Nat) (bits exp : Count5), 3 ≤ rem → b >>> 4 = 0b1110#8 →
    decode (.byte .start rem bits exp b) = .ok (.decLead3 (b.extractLsb' 0 4))
    ∧ (b.extractLsb' 0 4).setWidth 32 = (b &&& 0x0F#8).setWidth 32)
  ∧ (∀ (p : BitVec 4) (s : State), DecReady s →
    exec (.decLead3 p) s
      = .next (decAfter { mode := .cont, acc := p.setWidth 32, bits := 4#5, exp := 16#5 } [] s))
  ∧ decode (.byte .start 3 0#5 0#5 0xE0#8) = .ok (.decLead3 0#4)
  ∧ decode (.byte .start 3 0#5 0#5 0xED#8) = .ok (.decLead3 0xD#4)
  ∧ decodeFrame false [0xE0#8, 0x80#8, 0x80#8] = [0x0#32]
  ∧ decodeFrame false [0xE0#8, 0x9F#8, 0xBF#8] = [0x7FF#32]
  ∧ decodeFrame false [0xED#8, 0xA0#8, 0x80#8] = [0xD800#32]
  ∧ decodeFrame false [0xED#8, 0xBF#8, 0xBF#8] = [0xDFFF#32]
  ∧ ∀ v : Bool, decodeStep v (UnitRegs.clear .start) 3 0xE2#8
      = ({ mode := .cont, acc := 0x2#32, bits := 4#5, exp := 16#5 }, [])

/-- R89: DEC_LEAD3_TRUNC. -/
def Obligations.DecLead3TruncRejectsAndDrains : Prop :=
  (∀ (b : Byte) (rem : Nat) (bits exp : Count5), rem = 1 ∨ rem = 2 → b >>> 4 = 0b1110#8 →
    decode (.byte .start rem bits exp b) = .ok (.decLead3Trunc (b.extractLsb' 0 4)))
  ∧ (∀ (p : BitVec 4) (s : State), DecReady s →
    exec (.decLead3Trunc p) s = .next
      (decAfter { mode := .drain, acc := 0#32, bits := 0#5, exp := 0#5 } [0x0000FFFD#32] s))
  ∧ (∀ (v : Bool) (l b : Byte), l >>> 4 = 0b1110#8 → decodeFrame v [l, b] = [0xFFFD#32])
  ∧ ∀ v : Bool, decodeFrame v [0xE2#8, 0x41#8] = [0xFFFD#32]
    ∧ decodeFrame v [0xE2#8, 0x82#8] = [0xFFFD#32]

/-- R90: DEC_LEAD4. -/
def Obligations.DecLead4OpensAFourByteUnit : Prop :=
  (∀ (b : Byte) (rem : Nat) (bits exp : Count5), 4 ≤ rem → b >>> 3 = 0b11110#8 →
    decode (.byte .start rem bits exp b) = .ok (.decLead4 (b.extractLsb' 0 3))
    ∧ (b.extractLsb' 0 3).setWidth 32 = (b &&& 0x07#8).setWidth 32)
  ∧ (∀ (p : BitVec 3) (s : State), DecReady s →
    exec (.decLead4 p) s
      = .next (decAfter { mode := .cont, acc := p.setWidth 32, bits := 3#5, exp := 21#5 } [] s))
  ∧ decode (.byte .start 4 0#5 0#5 0xF5#8) = .ok (.decLead4 5#3)
  ∧ decode (.byte .start 4 0#5 0#5 0xF7#8) = .ok (.decLead4 7#3)
  ∧ decodeFrame false [0xF4#8, 0x90#8, 0x80#8, 0x80#8] = [0x110000#32]
  ∧ decodeFrame false [0xF0#8, 0x8F#8, 0xBF#8, 0xBF#8] = [0xFFFF#32]
  ∧ decodeFrame false [0xF7#8, 0xBF#8, 0xBF#8, 0xBF#8] = [0x1FFFFF#32]
  ∧ ∀ v : Bool, decodeStep v (UnitRegs.clear .start) 4 0xF0#8
      = ({ mode := .cont, acc := 0#32, bits := 3#5, exp := 21#5 }, [])

/-- R91: DEC_LEAD4_TRUNC. -/
def Obligations.DecLead4TruncRejectsAndDrains : Prop :=
  (∀ (b : Byte) (rem : Nat) (bits exp : Count5), rem = 1 ∨ rem = 2 ∨ rem = 3 →
    b >>> 3 = 0b11110#8 →
    decode (.byte .start rem bits exp b) = .ok (.decLead4Trunc (b.extractLsb' 0 3)))
  ∧ (∀ (p : BitVec 3) (s : State), DecReady s →
    exec (.decLead4Trunc p) s = .next
      (decAfter { mode := .drain, acc := 0#32, bits := 0#5, exp := 0#5 } [0x0000FFFD#32] s))
  ∧ (∀ (v : Bool) (l b c : Byte), l >>> 3 = 0b11110#8 →
    decodeFrame v [l, b] = [0xFFFD#32] ∧ decodeFrame v [l, b, c] = [0xFFFD#32])
  ∧ ∀ v : Bool, decodeFrame v [0xF0#8, 0x41#8, 0x80#8] = [0xFFFD#32]
    ∧ decodeFrame v [0xF1#8, 0x81#8, 0x80#8] = [0xFFFD#32]

/-- R92: DEC_STRAY. -/
def Obligations.DecStrayRejectsOneByte : Prop :=
  (∀ (b : Byte) (rem : Nat) (bits exp : Count5), 1 ≤ rem → b &&& 0xC0#8 = 0x80#8 →
    decode (.byte .start rem bits exp b) = .ok (.decStray (b.extractLsb' 0 6)))
  ∧ (∀ (p : BitVec 6) (s : State), DecReady s →
    exec (.decStray p) s = .next
      (decAfter { mode := .start, acc := 0#32, bits := 0#5, exp := 0#5 } [0x0000FFFD#32] s))
  ∧ ∀ v : Bool, decodeFrame v [0x80#8, 0xBF#8] = [0xFFFD#32, 0xFFFD#32]
    ∧ decodeFrame v [0x80#8] = [0xFFFD#32]

/-- R93: DEC_BADLEAD. -/
def Obligations.DecBadleadRejectsOneByte : Prop :=
  (∀ (b : Byte) (rem : Nat) (bits exp : Count5), 1 ≤ rem → b >>> 3 = 0b11111#8 →
    decode (.byte .start rem bits exp b) = .ok (.decBadlead (b.extractLsb' 0 3)))
  ∧ (∀ (p : BitVec 3) (s : State), DecReady s →
    exec (.decBadlead p) s = .next
      (decAfter { mode := .start, acc := 0#32, bits := 0#5, exp := 0#5 } [0x0000FFFD#32] s))
  ∧ (∀ (v : Bool) (b : Byte) (bs : List Byte), b >>> 3 = 0b11111#8 →
    decodeFrame v (b :: bs) = 0xFFFD#32 :: decodeFrame v bs)
  ∧ ∀ v : Bool, decodeFrame v [0xF8#8, 0x41#8] = [0xFFFD#32, 0x41#32]
    ∧ decodeFrame v [0xFF#8] = [0xFFFD#32]

/-- R94: DEC_CONT. -/
def Obligations.DecContAccumulatesSixBits : Prop :=
  (∀ (b : Byte) (rem : Nat) (bits exp : Count5), 1 ≤ rem → b &&& 0xC0#8 = 0x80#8 →
    bits.toNat + 6 < exp.toNat →
    decode (.byte .cont rem bits exp b) = .ok (.decCont (b.extractLsb' 0 6))
    ∧ (b.extractLsb' 0 6).setWidth 32 = (b &&& 0x3F#8).setWidth 32
    ∧ (bits + 6#5).toNat = bits.toNat + 6)
  ∧ (∀ (p : BitVec 6) (s : State), DecReady s →
    exec (.decCont p) s = .next
      (decAfter
        { s.dec.unit with
          acc := (s.dec.unit.acc <<< 6) ||| p.setWidth 32
          bits := s.dec.unit.bits + 6#5 } [] s))
  ∧ (∀ (u : UnitRegs) (rem : Nat) (p : BitVec 6), UnitInv u rem → u.mode = .cont →
    u.acc.toNat < 2 ^ 15
    ∧ ((u.acc <<< 6) ||| p.setWidth 32).toNat = u.acc.toNat * 64 + p.toNat)
  ∧ ∀ v : Bool, decodeStep v { mode := .cont, acc := 0x2#32, bits := 4#5, exp := 16#5 } 2 0x82#8
      = ({ mode := .cont, acc := 0x82#32, bits := 10#5, exp := 16#5 }, [])

/-- R95: DEC_CONT_LAST, with the validator's choice written out by `completedWord`. -/
def Obligations.DecContLastEmitsTheCompletedValue : Prop :=
  (∀ (b : Byte) (rem : Nat) (bits exp : Count5), 1 ≤ rem → b &&& 0xC0#8 = 0x80#8 →
    bits.toNat + 6 = exp.toNat →
    decode (.byte .cont rem bits exp b) = .ok (.decContLast (b.extractLsb' 0 6))
    ∧ (b.extractLsb' 0 6).setWidth 32 = (b &&& 0x3F#8).setWidth 32)
  ∧ (∀ (p : BitVec 6) (s : State), DecReady s →
    s.dec.unit.exp = 11#5 ∨ s.dec.unit.exp = 16#5 ∨ s.dec.unit.exp = 21#5 →
    exec (.decContLast p) s = .next
      (decAfter { mode := .start, acc := 0#32, bits := 0#5, exp := 0#5 }
        [completedWord s.cfg.decValidate s.dec.unit.exp
          ((s.dec.unit.acc <<< 6) ||| p.setWidth 32)] s))
  ∧ (∀ (u : UnitRegs) (rem : Nat) (p : BitVec 6), UnitInv u rem → u.mode = .cont →
    u.bits.toNat + 6 = u.exp.toNat → ((u.acc <<< 6) ||| p.setWidth 32).toNat < 2 ^ 21)
  ∧ decodeFrame false [0xC0#8, 0x80#8] = [0x00#32]
  ∧ decodeFrame false [0xED#8, 0xA0#8, 0x80#8] = [0xD800#32]
  ∧ decodeFrame false [0xF7#8, 0xBF#8, 0xBF#8, 0xBF#8] = [0x1FFFFF#32]
  ∧ ∀ v : Bool, decodeFrame v [0xEF#8, 0xBF#8, 0xBD#8] = [0xFFFD#32]
    ∧ decodeFrame v [0xE2#8, 0x82#8, 0xAC#8] = [0x20AC#32]

/-- R96: DEC_BADCONT. The byte that breaks a unit is consumed with it. -/
def Obligations.DecBadcontSwallowsTheByte : Prop :=
  (∀ (b : Byte) (rem : Nat) (bits exp : Count5), 1 ≤ rem → b &&& 0xC0#8 ≠ 0x80#8 →
    decode (.byte .cont rem bits exp b) = .ok (.decBadcont b))
  ∧ (∀ (b : Byte) (s : State), DecReady s →
    exec (.decBadcont b) s = .next
      (decAfter { mode := .start, acc := 0#32, bits := 0#5, exp := 0#5 } [0x0000FFFD#32] s))
  ∧ (∀ (v : Bool) (u : UnitRegs) (b : Byte) (bs : List Byte), u.mode = .cont →
    b &&& 0xC0#8 ≠ 0x80#8 → decodeFrom v u (b :: bs) = 0xFFFD#32 :: decodeFrame v bs)
  ∧ ∀ v : Bool, decodeFrame v [0xC2#8, 0x41#8] = [0xFFFD#32]
    ∧ decodeFrame v [0xE2#8, 0xC2#8, 0xA2#8] = [0xFFFD#32, 0xFFFD#32]
    ∧ decodeFrame v [0xE2#8, 0x82#8, 0x41#8, 0x42#8] = [0xFFFD#32, 0x42#32]

/-- R61, R97: DEC_DRAIN, entered only by a truncating operation, with at most two bytes left to drain
in a state that meets the invariant. -/
def Obligations.DecDrainConsumesWithoutOutput : Prop :=
  (∀ (b : Byte) (rem : Nat) (bits exp : Count5), 1 ≤ rem →
    decode (.byte .drain rem bits exp b) = .ok (.decDrain b))
  ∧ (∀ (b : Byte) (s : State), DecReady s →
    exec (.decDrain b) s = .next (decAfter s.dec.unit [] s))
  ∧ (∀ (i : Instr) (s t : State), exec i s = .next t → s.dec.unit.mode ≠ .drain →
    t.dec.unit.mode = .drain → isTruncating i = true)
  ∧ (∀ s t : State, step s = .next t → s.dec.unit.mode = .drain → t.dec.unit.mode ≠ .drain →
    ∃ rest, s.pending = .hardwareReset :: rest ∨ ∃ n, s.pending = .decCommand n :: rest)
  ∧ (∀ (u : UnitRegs) (rem : Nat), UnitInv u rem → u.mode = .drain → rem ≤ 2)
  ∧ ∀ v : Bool, frameOps v (UnitRegs.clear .start) [0xF1#8, 0x81#8, 0x80#8]
      = [.ok (.decLead4Trunc 1#3), .ok (.decDrain 0x81#8), .ok (.decDrain 0x80#8)]

/-- DEC_FRAME, whatever the frame before it left in the unit registers. That a command on an active
engine is refused as `frameWhileActive` also where its count is above `MAX_FRAME` is the model's choice
(log 8). -/
def Obligations.DecFrameStartsAFrameOrIsRefused : Prop :=
  (∀ (n : Nat) (s : State), s.dec.active = false → n ≤ s.cfg.maxFrame →
    exec (.decFrame n) s = .next
      { s with
        dec :=
          { s.dec with
            unit := { mode := .start, acc := 0#32, bits := 0#5, exp := 0#5 }
            rem := n
            active := n != 0 } })
  ∧ (∀ (n : Nat) (s : State), s.dec.active = true →
    exec (.decFrame n) s = .refused (.frameWhileActive .dec))
  ∧ (∀ (n : Nat) (s : State), s.dec.active = false → s.cfg.maxFrame < n →
    exec (.decFrame n) s = .refused (.countAboveMaxFrame .dec))
  ∧ (∀ s t : State, s.dec.active = true → s.dec.input = [] → engineTurn .dec s = .next t →
    t.dec = s.dec)
  ∧ ∀ v : Bool, decodeFrame v [] = [] ∧ decodeFrame v [0x80#8] = [0xFFFD#32]

/-- R83, R84: the decoder's element step, compared with the spec's frame-level step, and that `D`
takes none where it is not enabled. The premise `UnitInv` is R27 to R29 and `1 <= D.rem` is R21. -/
def Obligations.DecoderElementStep : Prop :=
  (∀ (s : State) (b : Byte) (bs : List Byte) (rest : List Event),
    s.pending = .turn .dec :: rest → s.dec.active = true → 1 ≤ s.dec.rem →
    UnitInv s.dec.unit s.dec.rem → s.dec.input = b :: bs →
    s.dec.output.length + 1 ≤ s.cfg.decOutDepth →
    step s = .next
      { s with
        pending := rest
        dec :=
          { active := s.dec.rem - 1 != 0
            rem := s.dec.rem - 1
            unit := (decodeStep s.cfg.decValidate s.dec.unit s.dec.rem b).1
            input := bs
            output := s.dec.output ++ (decodeStep s.cfg.decValidate s.dec.unit s.dec.rem b).2 } })
  ∧ ∀ (s t : State) (rest : List Event), s.pending = .turn .dec :: rest →
    s.dec.active = false ∨ s.dec.input = [] ∨ s.cfg.decOutDepth < s.dec.output.length + 1 →
    step s = .next t → t.dec = s.dec

/-- R102: every byte in every mode selects exactly one operation, and an enabled turn always completes
a step that takes the byte. -/
def Obligations.DecoderIsTotal : Prop :=
  (∀ (u : UnitRegs) (rem : Nat) (b : Byte), UnitInv u rem → 1 ≤ rem →
    ∃ i, decode (.byte u.mode rem u.bits u.exp b) = .ok i ∧ familyOf i = .decoder)
  ∧ ∀ (s : State) (b : Byte) (bs : List Byte), UnitInv s.dec.unit s.dec.rem → DecReady s →
    s.dec.input = b :: bs →
    ∃ t, engineTurn .dec s = .next t ∧ t.dec.input = bs ∧ t.dec.rem + 1 = s.dec.rem

/-- R99: `Decode` starts from the cleared registers in `START` and folds one step per byte with the
bytes left, and, whatever the schedule, what a frame sends to `DEC_OUT` begins `Decode` of the frame
and is all of it when the frame is complete, with no unit left open. `evs` is any interleaving of turns
of both engines and host moves, with no other decoder frame and no reset in it. -/
def Obligations.DecoderFrameOutputUnderAnySchedule : Prop :=
  (∀ (v : Bool) (bs : List Byte), decodeFrame v bs = decodeFrom v ⟨.start, 0#32, 0#5, 0#5⟩ bs)
  ∧ (∀ (v : Bool) (u : UnitRegs), decodeFrom v u [] = [])
  ∧ (∀ (v : Bool) (u : UnitRegs) (b : Byte) (bs : List Byte), decodeFrom v u (b :: bs)
      = (decodeStep v u (b :: bs).length b).2 ++ decodeFrom v (decodeStep v u (b :: bs).length b).1 bs)
  ∧ ∀ (s t : State) (n : Nat) (evs rest : List Event),
    s.pending = .decCommand n :: (evs ++ rest) →
    (∀ ev ∈ evs, ev ≠ .hardwareReset ∧ ∀ m : Nat, ev ≠ .decCommand m) →
    runSteps (evs.length + 1) s = .next t →
    ∃ (bs : List Byte) (out : List Word), s.dec.input ++ evs.flatMap pushedBytes = bs ++ t.dec.input
      ∧ bs.length + t.dec.rem = n ∧ (t.dec.active = true ↔ t.dec.rem ≠ 0)
      ∧ t.decProduced = s.decProduced ++ out
      ∧ (∀ more : List Byte, more.length = t.dec.rem →
          ∃ later, decodeFrame s.cfg.decValidate (bs ++ more) = out ++ later)
      ∧ (t.dec.active = false →
          out = decodeFrame s.cfg.decValidate bs ∧ t.dec.unit.mode ≠ .cont)

/-- A frame of `N` bytes completes after its command and exactly `N` decoder turns, with the bytes in
`DEC_IN` and room in `DEC_OUT`, and appends exactly `Decode` of the bytes. -/
def Obligations.DecoderFrameCompletesInItsTurns : Prop :=
  ∀ (s : State) (bs more : List Byte) (rest : List Event),
    s.pending = .decCommand bs.length :: (List.replicate bs.length (.turn .dec) ++ rest) →
    s.dec.active = false → bs.length ≤ s.cfg.maxFrame → s.dec.input = bs ++ more →
    s.dec.output.length + bs.length ≤ s.cfg.decOutDepth →
    ∃ u : UnitRegs, (u.mode = .start ∨ u.mode = .drain)
      ∧ runSteps (bs.length + 1) s = .next
        { s with
          pending := rest
          dec :=
            { active := false, rem := 0, unit := u, input := more
              output := s.dec.output ++ decodeFrame s.cfg.decValidate bs } }

/-- R56, R100: without the validator a completed unit is emitted exactly as its payload fields assemble
it, wherever the unit stands in its frame. -/
def Obligations.UnvalidatedUnitsAreEmittedAsAssembled : Prop :=
  (∀ (l : BitVec 5) (c : BitVec 6) (bs : List Byte), ∃ v : Word,
    v = (l.setWidth 32 <<< 6) ||| c.setWidth 32
    ∧ v.toNat = l.toNat * 2 ^ 6 + c.toNat
    ∧ decodeFrame false ((0xC0#8 ||| l.setWidth 8) :: (0x80#8 ||| c.setWidth 8) :: bs)
        = v :: decodeFrame false bs)
  ∧ (∀ (l : BitVec 4) (c d : BitVec 6) (bs : List Byte), ∃ v : Word,
    v = (((l.setWidth 32 <<< 6) ||| c.setWidth 32) <<< 6) ||| d.setWidth 32
    ∧ v.toNat = l.toNat * 2 ^ 12 + (c.toNat * 2 ^ 6 + d.toNat)
    ∧ decodeFrame false
        ((0xE0#8 ||| l.setWidth 8) :: (0x80#8 ||| c.setWidth 8) :: (0x80#8 ||| d.setWidth 8) :: bs)
        = v :: decodeFrame false bs)
  ∧ ∀ (l : BitVec 3) (c d e : BitVec 6) (bs : List Byte), ∃ v : Word,
    v = (((((l.setWidth 32 <<< 6) ||| c.setWidth 32) <<< 6) ||| d.setWidth 32) <<< 6)
        ||| e.setWidth 32
    ∧ v.toNat = l.toNat * 2 ^ 18 + (c.toNat * 2 ^ 12 + (d.toNat * 2 ^ 6 + e.toNat))
    ∧ decodeFrame false
        ((0xF0#8 ||| l.setWidth 8) :: (0x80#8 ||| c.setWidth 8) :: (0x80#8 ||| d.setWidth 8)
          :: (0x80#8 ||| e.setWidth 8) :: bs)
        = v :: decodeFrame false bs

/-- A frame's output is no longer than its input, and as long exactly when no step of the frame is one
that emits nothing. -/
def Obligations.DecodeEmitsAtMostOneWordPerByte : Prop :=
  ∀ (v : Bool) (bs : List Byte),
    (decodeFrame v bs).length ≤ bs.length
    ∧ ((decodeFrame v bs).length = bs.length ↔
        ∀ i, Except.ok i ∈ frameOps v (UnitRegs.clear .start) bs → isSilent i = false)

/-! ## Substitution, the validator and the laws over both engines -/

/-- R110: the validator inside DEC_CONT_LAST, for each length, with its tests written out; with
`DEC_VALIDATE` false it is never consulted. -/
def Obligations.ValidatorReplacesInvalidUnits : Prop :=
  (∀ (p : BitVec 6) (s : State) (v : Word) (min : Nat), DecReady s → s.cfg.decValidate = true →
    v = (s.dec.unit.acc <<< 6) ||| p.setWidth 32 →
    (s.dec.unit.exp = 11#5 ∧ min = 0x80) ∨ (s.dec.unit.exp = 16#5 ∧ min = 0x800)
      ∨ (s.dec.unit.exp = 21#5 ∧ min = 0x10000) →
    ((min ≤ v.toNat ∧ ¬ (0xD800 ≤ v.toNat ∧ v.toNat ≤ 0xDFFF) ∧ v.toNat ≤ 0x10FFFF) →
      exec (.decContLast p) s = .next (decAfter (UnitRegs.clear .start) [v] s))
    ∧ (¬ (min ≤ v.toNat ∧ ¬ (0xD800 ≤ v.toNat ∧ v.toNat ≤ 0xDFFF) ∧ v.toNat ≤ 0x10FFFF) →
      exec (.decContLast p) s = .next (decAfter (UnitRegs.clear .start) [0xFFFD#32] s)))
  ∧ ∀ (p : BitVec 6) (s : State), DecReady s → s.cfg.decValidate = false →
    exec (.decContLast p) s = .next
      (decAfter (UnitRegs.clear .start) [(s.dec.unit.acc <<< 6) ||| p.setWidth 32] s)

/-- The cause of a rejected completed unit is the first of the three tests that holds, one of them
does hold, and the three never hold together. -/
def Obligations.ValidatorCauseIsTheFirstTestThatHolds : Prop :=
  ∀ (v : Word) (len min : Nat), (len = 2 ∧ min = 0x80) ∨ (len = 3 ∧ min = 0x800)
      ∨ (len = 4 ∧ min = 0x10000) → valid v len = false →
    (v.toNat < min ∨ (0xD800 ≤ v.toNat ∧ v.toNat ≤ 0xDFFF) ∨ 0x10FFFF < v.toNat)
    ∧ (validatorCause v len = .decOverlong ↔ v.toNat < min)
    ∧ (validatorCause v len = .decSur ↔
        ¬ v.toNat < min ∧ 0xD800 ≤ v.toNat ∧ v.toNat ≤ 0xDFFF)
    ∧ (validatorCause v len = .decOvr ↔
        ¬ v.toNat < min ∧ ¬ (0xD800 ≤ v.toNat ∧ v.toNat ≤ 0xDFFF) ∧ 0x10FFFF < v.toNat)
    ∧ ¬ (v.toNat < min ∧ (0xD800 ≤ v.toNat ∧ v.toNat ≤ 0xDFFF) ∧ 0x10FFFF < v.toNat)

/-- R112: the validator changes only the emitted value of a completed unit, at the frame level and in
the machine. -/
def Obligations.ValidatorChangesOnlyTheEmittedValue : Prop :=
  (∀ (u : UnitRegs) (rem : Nat) (b : Byte),
    (decodeStep true u rem b).1 = (decodeStep false u rem b).1)
  ∧ (∀ (u : UnitRegs) (rem : Nat) (b : Byte), UnitInv u rem →
    (decodeStep true u rem b).2 ≠ (decodeStep false u rem b).2 →
    u.mode = .cont ∧ b &&& 0xC0#8 = 0x80#8 ∧ u.bits.toNat + 6 = u.exp.toNat
    ∧ ∃ (v : Word) (len : Nat), unitLength u.exp = some len ∧ valid v len = false
      ∧ (decodeStep false u rem b).2 = [v] ∧ (decodeStep true u rem b).2 = [0xFFFD#32])
  ∧ (∀ bs : List Byte,
    (decodeFrame true bs).length = (decodeFrame false bs).length
    ∧ List.Forall₂ (fun t f : Word => t = f
        ∨ (t = 0xFFFD#32 ∧ (valid f 2 = false ∨ valid f 3 = false ∨ valid f 4 = false)))
        (decodeFrame true bs) (decodeFrame false bs))
  ∧ ∀ (i : Instr) (s t t' : State),
    exec i { s with cfg := { s.cfg with decValidate := true } } = .next t →
    exec i { s with cfg := { s.cfg with decValidate := false } } = .next t' →
    t.dec.unit = t'.dec.unit ∧ t.dec.rem = t'.dec.rem ∧ t.dec.active = t'.dec.active
    ∧ t.dec.input = t'.dec.input ∧ t.dec.output.length = t'.dec.output.length ∧ t.enc = t'.enc

/-- R105, R114: the marker's two forms agree, and a marker passes through either engine unchanged. -/
def Obligations.MarkerPassesThroughUnchanged : Prop :=
  replBytes = [0xEF#8, 0xBF#8, 0xBD#8] ∧ replCp = 0x0000FFFD#32
  ∧ encodeCP 0xFFFD#32 = replBytes
  ∧ ∀ v : Bool, decodeFrame v replBytes = [replCp]

/-- R113, R115: decoding what the encoder emits gives back every legal code point and U+FFFD for any
other word, with either setting of the validator, and rejects, truncates and drains nothing. -/
def Obligations.DecodeOfEncodedFrameIsTheLegalisedFrame : Prop :=
  (∀ (v : Bool) (ws : List Word), decodeFrame v (encodeFrame ws) = ws.map legalised)
  ∧ (∀ (v : Bool) (c : Word), c.toNat ≤ 0x10FFFF → ¬ (0xD800 ≤ c.toNat ∧ c.toNat ≤ 0xDFFF) →
    decodeFrame v (encodeFrame [c]) = [c])
  ∧ ∀ (v : Bool) (ws : List Word) (o : Except Reject Instr),
    o ∈ frameOps v (UnitRegs.clear .start) (encodeFrame ws) →
    ∃ i, o = .ok i ∧ isAccepting i = true

/-- R116: what the encoder emits is a sequence of well-formed units. -/
def Obligations.EncoderOutputIsWellFormed : Prop :=
  ∀ ws : List Word, ∃ units : List (List Byte), encodeFrame ws = units.flatten
    ∧ ∀ u ∈ units,
      (∃ b : Byte, u = [b] ∧ b.toNat ≤ 0x7F)
      ∨ ∃ (l : Byte) (cs : List Byte) (len : Nat) (v : Word),
        u = l :: cs ∧ 0xC2 ≤ l.toNat ∧ l.toNat ≤ 0xF4 ∧ unitLengthOf (formatOf l) = some len
        ∧ cs.length + 1 = len ∧ (∀ c ∈ cs, formatOf c = .cont)
        ∧ decodeFrame false u = [v] ∧ valid v len = true

/-! ## Whole-machine rules -/

/-- Exactly the four host protocol violations are refused, each by its name, and in a state that meets
the invariant no other event is refused; an engine that is short of input takes no step. The model's
choices here: the name where a command commits two violations (log 8), the next state of a turn that is
not enabled (log 5), and the free turn of an empty schedule (log 3). -/
def Obligations.OnlyHostViolationsAreRefused : Prop :=
  (∀ (s : State) (rest : List Event) (n : Nat), s.enc.active = true →
    s.pending = .encCommand n :: rest → step s = .refused (.frameWhileActive .enc))
  ∧ (∀ (s : State) (rest : List Event) (n : Nat), s.dec.active = true →
    s.pending = .decCommand n :: rest → step s = .refused (.frameWhileActive .dec))
  ∧ (∀ (s : State) (rest : List Event) (n : Nat), s.enc.active = false → s.cfg.maxFrame < n →
    s.pending = .encCommand n :: rest → step s = .refused (.countAboveMaxFrame .enc))
  ∧ (∀ (s : State) (rest : List Event) (n : Nat), s.dec.active = false → s.cfg.maxFrame < n →
    s.pending = .decCommand n :: rest → step s = .refused (.countAboveMaxFrame .dec))
  ∧ (∀ (s : State) (rest : List Event) (w : Word), s.cfg.encInDepth ≤ s.enc.input.length →
    s.pending = .pushEnc w :: rest → step s = .refused (.pushToFullChannel .enc))
  ∧ (∀ (s : State) (rest : List Event) (b : Byte), s.cfg.decInDepth ≤ s.dec.input.length →
    s.pending = .pushDec b :: rest → step s = .refused (.pushToFullChannel .dec))
  ∧ (∀ (s : State) (rest : List Event), s.enc.output = [] →
    s.pending = .popEnc :: rest → step s = .refused (.popFromEmptyChannel .enc))
  ∧ (∀ (s : State) (rest : List Event), s.dec.output = [] →
    s.pending = .popDec :: rest → step s = .refused (.popFromEmptyChannel .dec))
  ∧ (∀ (s t : State) (rest : List Event), s.enc.active = true → s.enc.input = [] →
    s.pending = .turn .enc :: rest → step s = .next t → t.enc = s.enc)
  ∧ (∀ (s t : State) (rest : List Event), s.dec.active = true → s.dec.input = [] →
    s.pending = .turn .dec :: rest → step s = .next t → t.dec = s.dec)
  ∧ (∀ s : State, s.Inv → s.pending = [] → ∃ t, step s = .next t)
  ∧ ∀ (s : State) (ev : Event) (rest : List Event), s.Inv → s.pending = ev :: rest →
    ((∃ t, step s = .next t) ↔ ¬ Violation s ev)

/-- R21: each element step runs with `X.rem >= 1` and takes one from it, a frame command sets it to
its count, reset clears it, and nothing else moves it; when it reaches 0 the engine is idle. -/
def Obligations.FrameCursorMovesByOneElement : Prop :=
  (∀ s t : State, step s = .next t →
    t.enc.rem = s.enc.rem
    ∨ (1 ≤ s.enc.rem ∧ t.enc.rem + 1 = s.enc.rem ∧ t.enc.active = (t.enc.rem != 0))
    ∨ (∃ n rest, s.pending = .encCommand n :: rest ∧ t.enc.rem = n ∧ t.enc.active = (n != 0))
    ∨ ∃ rest, s.pending = .hardwareReset :: rest ∧ t.enc.rem = 0)
  ∧ (∀ (s : State) (rest : List Event), EncReady s → s.pending = .turn .enc :: rest →
    ∃ t, step s = .next t ∧ t.enc.rem + 1 = s.enc.rem)
  ∧ (∀ (s : State) (rest : List Event), UnitInv s.dec.unit s.dec.rem → DecReady s →
    s.pending = .turn .dec :: rest → ∃ t, step s = .next t ∧ t.dec.rem + 1 = s.dec.rem)
  ∧ (∀ (s : State) (rest : List Event) (n : Nat), s.enc.active = false → n ≤ s.cfg.maxFrame →
    s.pending = .encCommand n :: rest → ∃ t, step s = .next t ∧ t.enc.rem = n)
  ∧ (∀ (s : State) (rest : List Event) (n : Nat), s.dec.active = false → n ≤ s.cfg.maxFrame →
    s.pending = .decCommand n :: rest → ∃ t, step s = .next t ∧ t.dec.rem = n)
  ∧ ∀ s t : State, step s = .next t →
    t.dec.rem = s.dec.rem
    ∨ (1 ≤ s.dec.rem ∧ t.dec.rem + 1 = s.dec.rem ∧ t.dec.active = (t.dec.rem != 0))
    ∨ (∃ n rest, s.pending = .decCommand n :: rest ∧ t.dec.rem = n ∧ t.dec.active = (n != 0))
    ∨ ∃ rest, s.pending = .hardwareReset :: rest ∧ t.dec.rem = 0

/-- No step changes the build-time parameters, and a busy bit changes only by its engine's element
step, its frame command or hardware reset: an engine's turn, scheduled or free, never changes the other
engine's, and changes its own only where its step is enabled. A host read of a busy bit gives the bit and changes
nothing of the block. That an empty schedule gives some engine a free turn (log 3) and that the bit read
is recorded in the host's view (log 4) are the model's choices. -/
def Obligations.ParametersAndBusyBitsChangeOnlyAsSaid : Prop :=
  (∀ s t : State, step s = .next t → t.cfg = s.cfg)
  ∧ (∀ (s t : State) (ev : Event) (rest : List Event), s.pending = ev :: rest → step s = .next t →
    (t.enc.active ≠ s.enc.active →
      ev = .turn .enc ∨ (∃ n, ev = .encCommand n) ∨ ev = .hardwareReset)
    ∧ (t.dec.active ≠ s.dec.active →
      ev = .turn .dec ∨ (∃ n, ev = .decCommand n) ∨ ev = .hardwareReset))
  ∧ (∀ s t : State, s.pending = [] → step s = .next t →
    ∃ e : Engine, step s = engineTurn e { s with turns := s.turns + 1 }
      ∧ (t.enc.active ≠ s.enc.active → e = .enc) ∧ (t.dec.active ≠ s.dec.active → e = .dec))
  ∧ (∀ (s t : State) (e : Engine), engineTurn e s = .next t →
    (t.enc.active ≠ s.enc.active → e = .enc ∧ EncReady s)
    ∧ (t.dec.active ≠ s.dec.active → e = .dec ∧ DecReady s))
  ∧ (∀ (s : State) (rest : List Event), s.pending = .readEncBusy :: rest →
    step s = .next { s with pending := rest, host := { s.host with encBusy := some s.enc.active } })
  ∧ ∀ (s : State) (rest : List Event), s.pending = .readDecBusy :: rest →
    step s = .next { s with pending := rest, host := { s.host with decBusy := some s.dec.active } }

/-- R48: the two engines' turns commute, neither changes the other engine, and what an encoder turn
does depends on the encoder and the parameters alone, as a decoder turn's effect does on the decoder
and the parameters. -/
def Obligations.EngineTurnsAreIndependent : Prop :=
  (∀ (s : State) (rest : List Event),
    runSteps 2 { s with pending := .turn .enc :: .turn .dec :: rest }
      = runSteps 2 { s with pending := .turn .dec :: .turn .enc :: rest })
  ∧ (∀ s t : State, engineTurn .enc s = .next t → t.dec = s.dec ∧ t.host = s.host)
  ∧ (∀ s t : State, engineTurn .dec s = .next t → t.enc = s.enc ∧ t.host = s.host)
  ∧ (∀ s s' t t' : State, s.enc = s'.enc → s.cfg = s'.cfg → engineTurn .enc s = .next t →
    engineTurn .enc s' = .next t' → t.enc = t'.enc)
  ∧ ∀ s s' t t' : State, s.dec = s'.dec → s.cfg = s'.cfg → engineTurn .dec s = .next t →
    engineTurn .dec s' = .next t' → t.dec = t'.dec

/-- R46: whatever the schedule, a step other than hardware reset adds to all that an engine has ever
emitted exactly the output of the elements the step takes from the head of the engine's input. An
empty schedule stands for a turn of either engine. -/
def Obligations.OutputsFollowTheOrderOfInputs : Prop :=
  (∀ (s t : State) (ev : Event) (rest : List Event),
    s.pending = ev :: rest ∨ (s.pending = [] ∧ ∃ e, ev = .turn e) → ev ≠ .hardwareReset →
    step s = .next t →
    ∃ ws : List Word, ws.length ≤ 1 ∧ s.enc.input ++ pushedWords ev = ws ++ t.enc.input
      ∧ t.encProduced = s.encProduced ++ encodeFrame ws)
  ∧ ∀ (s t : State) (ev : Event) (rest : List Event), s.Inv →
    s.pending = ev :: rest ∨ (s.pending = [] ∧ ∃ e, ev = .turn e) →
    ev ≠ .hardwareReset → step s = .next t →
    (s.dec.input ++ pushedBytes ev = t.dec.input ∧ t.decProduced = s.decProduced)
    ∨ ∃ b : Byte, s.dec.input ++ pushedBytes ev = b :: t.dec.input
      ∧ t.decProduced
        = s.decProduced ++ (decodeStep s.cfg.decValidate s.dec.unit s.dec.rem b).2

/-- R101: a decoder turn never looks past the byte it takes and never gives one back. With the same
registers and the same first byte, two inputs leave the same registers and output. A turn whose step is
enabled consumes that byte for good, whatever it makes of it, and leaves the bytes after it; one whose
step is not enabled leaves the decoder as it was. -/
def Obligations.DecoderNeverLooksAhead : Prop :=
  ∀ (s t t' : State) (b : Byte) (bs bs' : List Byte),
    engineTurn .dec { s with dec := { s.dec with input := b :: bs } } = .next t →
    engineTurn .dec { s with dec := { s.dec with input := b :: bs' } } = .next t' →
    t.dec.unit = t'.dec.unit ∧ t.dec.rem = t'.dec.rem ∧ t.dec.active = t'.dec.active
    ∧ t.dec.output = t'.dec.output
    ∧ (DecReady { s with dec := { s.dec with input := b :: bs } } →
        t.dec.input = bs ∧ t'.dec.input = bs' ∧ t.dec.rem + 1 = s.dec.rem)
    ∧ (¬ DecReady { s with dec := { s.dec with input := b :: bs } } →
        t.dec = { s.dec with input := b :: bs } ∧ t'.dec = { s.dec with input := b :: bs' })

/-- What a host push and a host pop do: a channel is first in, first out, and nothing else changes. That
the popped element is kept in the host's view is the model's choice (log 4). -/
def Obligations.HostPushesAndPopsAreFirstInFirstOut : Prop :=
  (∀ (s : State) (rest : List Event) (w : Word), s.pending = .pushEnc w :: rest →
    s.enc.input.length < s.cfg.encInDepth →
    step s = .next { s with pending := rest, enc := { s.enc with input := s.enc.input ++ [w] } })
  ∧ (∀ (s : State) (rest : List Event) (b : Byte), s.pending = .pushDec b :: rest →
    s.dec.input.length < s.cfg.decInDepth →
    step s = .next { s with pending := rest, dec := { s.dec with input := s.dec.input ++ [b] } })
  ∧ (∀ (s : State) (rest : List Event) (b : Byte) (bs : List Byte), s.pending = .popEnc :: rest →
    s.enc.output = b :: bs →
    step s = .next
      { s with
        pending := rest
        enc := { s.enc with output := bs }
        host := { s.host with encGot := s.host.encGot ++ [b] } })
  ∧ ∀ (s : State) (rest : List Event) (w : Word) (ws : List Word), s.pending = .popDec :: rest →
    s.dec.output = w :: ws →
    step s = .next
      { s with
        pending := rest
        dec := { s.dec with output := ws }
        host := { s.host with decGot := s.host.decGot ++ [w] } }

/-! ## Frames: what an instruction leaves unchanged -/

/-- The six encoder operations ENC_1B, ENC_2B, ENC_SUR, ENC_3B, ENC_4B and ENC_OVR: an enabled one
takes one word, appends one to four bytes and moves the encoder's cursor; one that is not enabled
changes nothing; neither touches anything else. -/
def Obligations.EncoderOperationsFrame : Prop :=
  ∀ (i : Instr) (s t : State), familyOf i = .encoder → exec i s = .next t →
    t.cfg = s.cfg ∧ t.dec = s.dec ∧ t.host = s.host ∧ t.pending = s.pending ∧ t.turns = s.turns
    ∧ (¬ EncReady s → t = s)
    ∧ (EncReady s → t.enc.input = s.enc.input.tail ∧ t.enc.rem + 1 = s.enc.rem
        ∧ t.enc.active = (t.enc.rem != 0)
        ∧ ∃ g : List Byte, t.enc.output = s.enc.output ++ g ∧ 1 ≤ g.length ∧ g.length ≤ 4)

/-- The thirteen decoder operations: an enabled one takes one byte, appends at most one word (none for
DEC_LEAD2, DEC_LEAD3, DEC_LEAD4, DEC_CONT and DEC_DRAIN) and moves the decoder's cursor; DEC_ASCII and
DEC_DRAIN leave the unit registers, DEC_CONT leaves `D.mode` and `D.exp`; one that is not enabled
changes nothing; none touches anything else. -/
def Obligations.DecoderOperationsFrame : Prop :=
  ∀ (i : Instr) (s t : State), familyOf i = .decoder → exec i s = .next t →
    t.cfg = s.cfg ∧ t.enc = s.enc ∧ t.host = s.host ∧ t.pending = s.pending ∧ t.turns = s.turns
    ∧ (¬ DecReady s → t = s)
    ∧ (DecReady s → t.dec.input = s.dec.input.tail ∧ t.dec.rem + 1 = s.dec.rem
        ∧ t.dec.active = (t.dec.rem != 0)
        ∧ ∃ out : List Word, t.dec.output = s.dec.output ++ out
          ∧ out.length = if isSilent i = true then 0 else 1)
    ∧ ((∃ p, i = .decAscii p) ∨ (∃ b, i = .decDrain b) → t.dec.unit = s.dec.unit)
    ∧ ((∃ p, i = .decCont p) →
        t.dec.unit.mode = s.dec.unit.mode ∧ t.dec.unit.exp = s.dec.unit.exp)

/-- The frame commands leave the four channels, the other engine, the host and the schedule as they
were. -/
def Obligations.FrameCommandsFrame : Prop :=
  (∀ (n : Nat) (s t : State), exec (.encFrame n) s = .next t →
    t.cfg = s.cfg ∧ t.dec = s.dec ∧ t.host = s.host ∧ t.pending = s.pending ∧ t.turns = s.turns
    ∧ t.enc.input = s.enc.input ∧ t.enc.output = s.enc.output)
  ∧ ∀ (n : Nat) (s t : State), exec (.decFrame n) s = .next t →
    t.cfg = s.cfg ∧ t.enc = s.enc ∧ t.host = s.host ∧ t.pending = s.pending ∧ t.turns = s.turns
    ∧ t.dec.input = s.dec.input ∧ t.dec.output = s.dec.output
end

