-- ==== Sys2Proof/Laws/State.lean ====
section
/-! SUPPORT. One lemma per field per update of `State`, so that no later proof unfolds an update. -/

namespace Sys2Proof.Machine

@[simp] theorem State.withEnc_cfg (s : State) (e : Encoder) : (s.withEnc e).cfg = s.cfg := rfl
@[simp] theorem State.withEnc_enc (s : State) (e : Encoder) : (s.withEnc e).enc = e := rfl
@[simp] theorem State.withEnc_dec (s : State) (e : Encoder) : (s.withEnc e).dec = s.dec := rfl
@[simp] theorem State.withEnc_host (s : State) (e : Encoder) : (s.withEnc e).host = s.host := rfl
@[simp] theorem State.withEnc_pending (s : State) (e : Encoder) : (s.withEnc e).pending = s.pending := rfl
@[simp] theorem State.withEnc_turns (s : State) (e : Encoder) : (s.withEnc e).turns = s.turns := rfl
@[simp] theorem State.withEnc_self (s : State) : s.withEnc s.enc = s := rfl

@[simp] theorem State.withDec_cfg (s : State) (d : Decoder) : (s.withDec d).cfg = s.cfg := rfl
@[simp] theorem State.withDec_enc (s : State) (d : Decoder) : (s.withDec d).enc = s.enc := rfl
@[simp] theorem State.withDec_dec (s : State) (d : Decoder) : (s.withDec d).dec = d := rfl
@[simp] theorem State.withDec_host (s : State) (d : Decoder) : (s.withDec d).host = s.host := rfl
@[simp] theorem State.withDec_pending (s : State) (d : Decoder) : (s.withDec d).pending = s.pending := rfl
@[simp] theorem State.withDec_turns (s : State) (d : Decoder) : (s.withDec d).turns = s.turns := rfl
@[simp] theorem State.withDec_self (s : State) : s.withDec s.dec = s := rfl

@[simp] theorem State.withHost_cfg (s : State) (h : HostView) : (s.withHost h).cfg = s.cfg := rfl
@[simp] theorem State.withHost_enc (s : State) (h : HostView) : (s.withHost h).enc = s.enc := rfl
@[simp] theorem State.withHost_dec (s : State) (h : HostView) : (s.withHost h).dec = s.dec := rfl
@[simp] theorem State.withHost_host (s : State) (h : HostView) : (s.withHost h).host = h := rfl
@[simp] theorem State.withHost_pending (s : State) (h : HostView) : (s.withHost h).pending = s.pending := rfl
@[simp] theorem State.withHost_turns (s : State) (h : HostView) : (s.withHost h).turns = s.turns := rfl
@[simp] theorem State.withHost_self (s : State) : s.withHost s.host = s := rfl

@[simp] theorem State.withPending_cfg (s : State) (p : List Event) : (s.withPending p).cfg = s.cfg := rfl
@[simp] theorem State.withPending_enc (s : State) (p : List Event) : (s.withPending p).enc = s.enc := rfl
@[simp] theorem State.withPending_dec (s : State) (p : List Event) : (s.withPending p).dec = s.dec := rfl
@[simp] theorem State.withPending_host (s : State) (p : List Event) : (s.withPending p).host = s.host := rfl
@[simp] theorem State.withPending_pending (s : State) (p : List Event) : (s.withPending p).pending = p := rfl
@[simp] theorem State.withPending_turns (s : State) (p : List Event) : (s.withPending p).turns = s.turns := rfl
@[simp] theorem State.withPending_self (s : State) : s.withPending s.pending = s := rfl

@[simp] theorem State.tick_cfg (s : State) : s.tick.cfg = s.cfg := rfl
@[simp] theorem State.tick_enc (s : State) : s.tick.enc = s.enc := rfl
@[simp] theorem State.tick_dec (s : State) : s.tick.dec = s.dec := rfl
@[simp] theorem State.tick_host (s : State) : s.tick.host = s.host := rfl
@[simp] theorem State.tick_pending (s : State) : s.tick.pending = s.pending := rfl
@[simp] theorem State.tick_turns (s : State) : s.tick.turns = s.turns + 1 := rfl

@[simp] theorem UnitRegs.clear_mode (m : Mode) : (UnitRegs.clear m).mode = m := rfl
@[simp] theorem UnitRegs.clear_acc (m : Mode) : (UnitRegs.clear m).acc = 0#32 := rfl
@[simp] theorem UnitRegs.clear_bits (m : Mode) : (UnitRegs.clear m).bits = 0#5 := rfl
@[simp] theorem UnitRegs.clear_exp (m : Mode) : (UnitRegs.clear m).exp = 0#5 := rfl

end Sys2Proof.Machine
end

