-- ==== Sys2Proof/Laws/Ops.lean ====
section
/-! SUPPORT. One lemma per shared operation that says everything it can do. -/

namespace Sys2Proof.Machine

@[simp] theorem frameOpen_eq_true (n : Nat) : frameOpen n = true ↔ 1 ≤ n := by
  simp [frameOpen]; omega

/-- An enabled encoder element step. -/
theorem encElement_ready {g : List Byte} {s : State} (h : EncReady s) :
    encElement g s = .next (encAfter g s) := by
  unfold encElement; exact if_pos h

/-- An encoder whose step is not enabled waits. -/
theorem encElement_waits {g : List Byte} {s : State} (h : ¬ EncReady s) :
    encElement g s = .next s := by
  unfold encElement; exact if_neg h

/-- All an encoder element step can do. -/
theorem encElement_cases {g : List Byte} {s t : State} (h : encElement g s = .next t) :
    (EncReady s ∧ t = encAfter g s) ∨ (¬ EncReady s ∧ t = s) := by
  by_cases r : EncReady s
  · rw [encElement_ready r] at h
    cases h
    exact .inl ⟨r, rfl⟩
  · rw [encElement_waits r] at h
    cases h
    exact .inr ⟨r, rfl⟩

/-- An enabled decoder element step. -/
theorem decElement_ready {u : UnitRegs} {out : List Word} {s : State} (h : DecReady s) :
    decElement u out s = .next (decAfter u out s) := by
  unfold decElement; exact if_pos h

/-- A decoder whose step is not enabled waits. -/
theorem decElement_waits {u : UnitRegs} {out : List Word} {s : State} (h : ¬ DecReady s) :
    decElement u out s = .next s := by
  unfold decElement; exact if_neg h

/-- All a decoder element step can do. -/
theorem decElement_cases {u : UnitRegs} {out : List Word} {s t : State}
    (h : decElement u out s = .next t) :
    (DecReady s ∧ t = decAfter u out s) ∨ (¬ DecReady s ∧ t = s) := by
  by_cases r : DecReady s
  · rw [decElement_ready r] at h
    cases h
    exact .inl ⟨r, rfl⟩
  · rw [decElement_waits r] at h
    cases h
    exact .inr ⟨r, rfl⟩

/-- All a frame command can do. -/
theorem startFrame_cases {e : Engine} {n : Nat} {after s t : State}
    (h : startFrame e n after s = .next t) :
    s.busy e = false ∧ n ≤ s.cfg.maxFrame ∧ t = after := by
  unfold startFrame at h
  split at h
  · cases h
  · next hb =>
    split at h
    · cases h
    · next hn =>
      cases h
      exact ⟨by simpa using hb, by omega, rfl⟩

/-- An accepted frame command. -/
theorem startFrame_accepts {e : Engine} {n : Nat} {after s : State} (hb : s.busy e = false)
    (hn : n ≤ s.cfg.maxFrame) : startFrame e n after s = .next after := by
  simp [startFrame, hb, Nat.not_lt.mpr hn]

/-- All a host push of a word can do. -/
theorem pushEnc_cases {w : Word} {s t : State} (h : pushEnc w s = .next t) :
    s.enc.input.length < s.cfg.encInDepth
      ∧ t = s.withEnc { s.enc with input := s.enc.input ++ [w] } := by
  unfold pushEnc at h
  split at h
  · cases h
    exact ⟨‹_›, rfl⟩
  · cases h

/-- All a host push of a byte can do. -/
theorem pushDec_cases {b : Byte} {s t : State} (h : pushDec b s = .next t) :
    s.dec.input.length < s.cfg.decInDepth
      ∧ t = s.withDec { s.dec with input := s.dec.input ++ [b] } := by
  unfold pushDec at h
  split at h
  · cases h
    exact ⟨‹_›, rfl⟩
  · cases h

/-- All a host pop of a byte can do. -/
theorem popEnc_cases {s t : State} (h : popEnc s = .next t) :
    ∃ b rest, s.enc.output = b :: rest
      ∧ t = (s.withEnc { s.enc with output := rest }).withHost
          { s.host with encGot := s.host.encGot ++ [b] } := by
  unfold popEnc at h
  split at h
  · cases h
  · cases h
    exact ⟨_, _, ‹_›, rfl⟩

/-- All a host pop of a word can do. -/
theorem popDec_cases {s t : State} (h : popDec s = .next t) :
    ∃ w rest, s.dec.output = w :: rest
      ∧ t = (s.withDec { s.dec with output := rest }).withHost
          { s.host with decGot := s.host.decGot ++ [w] } := by
  unfold popDec at h
  split at h
  · cases h
  · cases h
    exact ⟨_, _, ‹_›, rfl⟩

/-- The encoder's fetch is the head of `ENC_IN` when its step is enabled. -/
theorem fetchEnc_ready {s : State} {w : Word} {ws : List Word} (h : EncReady s)
    (hi : s.enc.input = w :: ws) : fetchEnc s = some (.word w) := by
  simp only [fetchEnc]
  rw [if_pos h, hi]
  rfl

/-- The encoder fetches nothing when its step is not enabled. -/
theorem fetchEnc_waits {s : State} (h : ¬ EncReady s) : fetchEnc s = none := if_neg h

/-- The decoder's fetch is the head of `DEC_IN` with the decoder's state, when its step is enabled. -/
theorem fetchDec_ready {s : State} {b : Byte} {bs : List Byte} (h : DecReady s)
    (hi : s.dec.input = b :: bs) :
    fetchDec s = some (.byte s.dec.unit.mode s.dec.rem s.dec.unit.bits s.dec.unit.exp b) := by
  simp only [fetchDec]
  rw [if_pos h, hi]
  rfl

/-- The decoder fetches nothing when its step is not enabled. -/
theorem fetchDec_waits {s : State} (h : ¬ DecReady s) : fetchDec s = none := if_neg h

end Sys2Proof.Machine
end

