-- ==== Sys2Proof/Laws/DecodeUnits.lean ====
section
/-! SUPPORT. The one lemma that ties the decoder's meanings to the spec's frame-level step. -/

namespace Sys2Proof.Machine

/-- The document's tests of a byte, as formats. -/
theorem byte_tests : ∀ b : Byte,
    (b &&& 0x80#8 = 0#8 ↔ formatOf b = .ascii) ∧ (b >>> 5 = 0b110#8 ↔ formatOf b = .lead2)
      ∧ (b >>> 4 = 0b1110#8 ↔ formatOf b = .lead3) ∧ (b >>> 3 = 0b11110#8 ↔ formatOf b = .lead4)
      ∧ (b &&& 0xC0#8 = 0x80#8 ↔ formatOf b = .cont) := by
  decide

/-- A byte's payload field, zero-extended, is the masked byte. -/
theorem payload_masks : ∀ b : Byte,
    (b.extractLsb' 0 5).setWidth 32 = (b &&& 0x1F#8).setWidth 32
      ∧ (b.extractLsb' 0 4).setWidth 32 = (b &&& 0x0F#8).setWidth 32
      ∧ (b.extractLsb' 0 3).setWidth 32 = (b &&& 0x07#8).setWidth 32
      ∧ (b.extractLsb' 0 6).setWidth 32 = (b &&& 0x3F#8).setWidth 32
      ∧ (b &&& 0x80#8 = 0#8 → (b.extractLsb' 0 7).setWidth 32 = b.setWidth 32) := by
  decide

/-- The counter of an open unit is six bits short of the total, or more. -/
theorem UnitInv.counter {u : UnitRegs} {rem : Nat} (hu : UnitInv u rem) (hm : u.mode = .cont) :
    u.bits.toNat + 6 < u.exp.toNat ∨ u.bits.toNat + 6 = u.exp.toNat := by
  have h := (hu.2.1 hm).1
  simp [openCounts] at h
  omega

/-- The expected total of an open unit is one of the three totals. -/
theorem UnitInv.total {u : UnitRegs} {rem : Nat} (hu : UnitInv u rem) (hm : u.mode = .cont) :
    u.exp = 11#5 ∨ u.exp = 16#5 ∨ u.exp = 21#5 := by
  have h := (hu.2.1 hm).1
  simp [openCounts] at h
  simp only [BitVec.toNat_eq, BitVec.reduceToNat]
  omega

/-- A byte in a legal decoder state selects an operation of the decoder family. -/
theorem decode_byte_ok {u : UnitRegs} {rem : Nat} (b : Byte) (hu : UnitInv u rem) (hr : 1 ≤ rem) :
    ∃ i, decode (.byte u.mode rem u.bits u.exp b) = .ok i ∧ familyOf i = .decoder := by
  have h0 : rem ≠ 0 := by omega
  simp only [decode, decodeByte, h0, if_false]
  cases hm : u.mode with
  | start =>
    simp only [decodeStart]
    cases formatOf b <;> simp <;> (try split_ifs) <;> rfl
  | cont =>
    simp only [decodeCont]
    rcases hu.counter hm with h | h <;> by_cases g : formatOf b = .cont <;> simp [g, h] <;> rfl
  | drain => exact ⟨_, rfl, rfl⟩

/-- DEC_CONT_LAST with a legal total is one element step that emits `completedWord`. -/
theorem exec_decContLast (p : BitVec 6) (s : State)
    (h : s.dec.unit.exp = 11#5 ∨ s.dec.unit.exp = 16#5 ∨ s.dec.unit.exp = 21#5) :
    exec (.decContLast p) s
      = decElement (UnitRegs.clear .start)
          [completedWord s.cfg.decValidate s.dec.unit.exp
            ((s.dec.unit.acc <<< 6) ||| p.setWidth 32)] s := by
  simp only [exec, execDecContLast, emitValidated, substituteDec, accumulate, payload, completedWord]
  rcases h with h | h | h <;> simp [h, unitLength] <;> cases s.cfg.decValidate <;> simp <;>
    split_ifs <;> simp_all

/-- Running the operation a byte selects is one decoder element step that does what `decodeStep` says. -/
theorem exec_decodeByte {s : State} {b : Byte} {i : Instr} (hu : UnitInv s.dec.unit s.dec.rem)
    (h : decode (.byte s.dec.unit.mode s.dec.rem s.dec.unit.bits s.dec.unit.exp b) = .ok i) :
    exec i s
      = decElement (decodeStep s.cfg.decValidate s.dec.unit s.dec.rem b).1
          (decodeStep s.cfg.decValidate s.dec.unit s.dec.rem b).2 s := by
  obtain ⟨f1, f2, f3, f4, f5⟩ := byte_tests b
  obtain ⟨q5, q4, q3, q6, q7⟩ := payload_masks b
  simp only [decode, decodeByte] at h
  split at h
  · cases h
  unfold decodeStep
  cases hm : s.dec.unit.mode with
  | start =>
    simp only [hm, decodeStart] at h ⊢
    simp only [f1, f2, f3, f4]
    cases hf : formatOf b <;> simp only [hf, reduceCtorEq, if_false, if_true] at h ⊢ <;>
      (try split_ifs at h ⊢) <;> cases h <;>
      simp_all [exec, execDecAscii, execDecLead2, execDecLead2Trunc, execDecLead3,
        execDecLead3Trunc, execDecLead4, execDecLead4Trunc, execDecStray, execDecBadlead,
        substituteDec, payload]
  | cont =>
    simp only [hm, decodeCont] at h ⊢
    simp only [f5]
    split_ifs at h with g1 g2 g3 <;> cases h
    · simp [exec, execDecCont, accumulate, payload, g1, g2, q6, hm]
    · rw [exec_decContLast _ _ (hu.total hm)]
      simp [g1, g2, q6]
    · simp [exec, execDecBadcont, substituteDec, g1]
  | drain =>
    simp only [hm] at h ⊢
    cases h
    rfl

end Sys2Proof.Machine
end

