-- ==== Sys2Proof/Laws/EncodeUnits.lean ====
section
/-! SUPPORT. `BITW` as a bound on the value, and the one lemma that ties the encoder's meanings to
`EncodeCP`. -/

namespace Sys2Proof.Machine

/-- The search below bit `m` stays at most `n` exactly when no bit from `n` to `m` is set. -/
theorem bitwBelow_le_iff (w : Word) (n : Nat) :
    ∀ m : Nat, bitwBelow w m ≤ n ↔ ∀ j, n ≤ j → j < m → w.getLsbD j = false := by
  intro m
  induction m with
  | zero => simp [bitwBelow]
  | succ m ih =>
    unfold bitwBelow
    by_cases h : w.getLsbD m
    · simp only [h, if_true]
      constructor
      · intro h1 j hj hj2
        omega
      · intro h1
        by_contra hc
        have := h1 m (by omega) (by omega)
        simp [h] at this
    · simp only [h, Bool.false_eq_true, if_false, ih]
      constructor
      · intro h1 j hj hj2
        by_cases e : j = m
        · subst e
          simpa using h
        · exact h1 j hj (by omega)
      · intro h1 j hj hj2
        exact h1 j hj (by omega)

/-- `BITW(w) <= n` bounds the value. -/
theorem bitw_le_iff (w : Word) (n : Nat) : bitw w ≤ n ↔ w.toNat < 2 ^ n := by
  unfold bitw
  rw [bitwBelow_le_iff]
  constructor
  · intro h
    apply Nat.lt_pow_two_of_testBit
    intro j hj
    by_cases c : j < 32
    · have := h j hj c
      rwa [← BitVec.testBit_toNat] at this
    · apply Nat.testBit_lt_two_pow
      calc w.toNat < 2 ^ 32 := w.isLt
        _ ≤ 2 ^ j := Nat.pow_le_pow_right (by omega) (by omega)
  · intro h j hj _
    rw [← BitVec.testBit_toNat]
    exact Nat.testBit_lt_two_pow (lt_of_lt_of_le h (Nat.pow_le_pow_right (by omega) hj))

/-- The four width tests of R57 as bounds on the value. -/
theorem bitw_tests (w : Word) :
    (bitw w ≤ 7 ↔ w.toNat < 0x80) ∧ (bitw w ≤ 11 ↔ w.toNat < 0x800)
      ∧ (bitw w ≤ 16 ↔ w.toNat < 0x10000) ∧ (bitw w ≤ 21 ↔ w.toNat < 0x200000) :=
  ⟨bitw_le_iff w 7, bitw_le_iff w 11, bitw_le_iff w 16, bitw_le_iff w 21⟩

/-- A shifted and masked field ORed with a marker is the marked payload field. -/
theorem fieldByte_eq_marked (w : Word) (m : Byte) (k n : Nat) :
    fieldByte (m.setWidth 32) w k (BitVec.ofNat 32 (2 ^ n - 1)) = marked m (w.extractLsb' k n) := by
  unfold fieldByte marked
  apply BitVec.eq_of_getLsbD_eq
  intro i hi
  have h8 : i < 8 := hi
  have h32 : i < 32 := by omega
  have hb : Nat.testBit (2 ^ n - 1) i = decide (i < n) := Nat.testBit_two_pow_sub_one ..
  simp only [BitVec.getLsbD_setWidth, BitVec.getLsbD_or, BitVec.getLsbD_and,
    BitVec.getLsbD_ushiftRight, BitVec.getLsbD_extractLsb', BitVec.getLsbD_ofNat, hb]
  simp only [h8, h32, decide_true, Bool.true_and]
  cases w.getLsbD (k + i) <;> simp

/-- Running the operation a word selects is one encoder element step that emits `EncodeCP` of it. -/
theorem exec_decodeWord (w : Word) (s : State) :
    exec (decodeWord w) s = encElement (encodeCP w) s := by
  have h0 := fieldByte_eq_marked w 0xC0#8 6 5
  have h1 := fieldByte_eq_marked w 0x80#8 0 6
  have h2 := fieldByte_eq_marked w 0x80#8 6 6
  have h3 := fieldByte_eq_marked w 0x80#8 12 6
  have h4 := fieldByte_eq_marked w 0xE0#8 12 4
  have h5 := fieldByte_eq_marked w 0xF0#8 18 3
  norm_num at h0 h1 h2 h3 h4 h5
  have h6 : bitw w ≤ 7 → (w.extractLsb' 0 7).setWidth 8 = w.setWidth 8 := by
    intro h
    rw [bitw_le_iff] at h
    apply BitVec.eq_of_toNat_eq
    simp at *
    omega
  unfold decodeWord encodeCP
  split_ifs <;> simp_all [exec, execEnc1B, execEnc2B, execEnc3B, execEnc4B, execEncOvr, execEncSur,
    substituteEnc, group1, group2, group3, group4]

end Sys2Proof.Machine
end

