-- ==== Sys2Proof/Laws/PerInstr.lean ====
section
/-! SUPPORT. For every instruction: the fetch `encode` writes is one an engine can present between
steps, so the decoder state in it meets R21, R28 and R29. -/

namespace Sys2Proof.Laws.EncodedFetchIsLegal

open Sys2Proof.Machine

/-- A decoder fetch whose mode and counters a run can reach; a word or a command is always one. -/
def Legal : Fetch → Prop
  | .word _ => True
  | .byte mode rem bits exp _ =>
      1 ≤ rem ∧ (mode = .cont → (exp.toNat, bits.toNat) ∈ openCounts
        ∧ (exp.toNat - bits.toNat) / 6 ≤ rem)
  | .encCommand _ => True
  | .decCommand _ => True

/-- The fetch of an instruction is legal. -/
def Statement (i : Instr) : Prop := Legal (encode i)

theorem enc1B (p : BitVec 7) : Statement (.enc1B p) := trivial
theorem enc2B (hi : BitVec 5) (lo : BitVec 6) : Statement (.enc2B hi lo) := trivial
theorem encSur (low : BitVec 11) : Statement (.encSur low) := trivial
theorem enc3B (hi : BitVec 4) (mid lo : BitVec 6) : Statement (.enc3B hi mid lo) := trivial
theorem enc4B (top : BitVec 3) (hi mid lo : BitVec 6) : Statement (.enc4B top hi mid lo) := trivial
theorem encOvr (w : Word) : Statement (.encOvr w) := trivial
theorem encFrame (n : Nat) : Statement (.encFrame n) := trivial
theorem decAscii (p : BitVec 7) : Statement (.decAscii p) := by simp [Statement, encode, Legal, openCounts]
theorem decLead2 (p : BitVec 5) : Statement (.decLead2 p) := by simp [Statement, encode, Legal, openCounts]
theorem decLead2Trunc (p : BitVec 5) : Statement (.decLead2Trunc p) := by simp [Statement, encode, Legal, openCounts]
theorem decLead3 (p : BitVec 4) : Statement (.decLead3 p) := by simp [Statement, encode, Legal, openCounts]
theorem decLead3Trunc (p : BitVec 4) : Statement (.decLead3Trunc p) := by simp [Statement, encode, Legal, openCounts]
theorem decLead4 (p : BitVec 3) : Statement (.decLead4 p) := by simp [Statement, encode, Legal, openCounts]
theorem decLead4Trunc (p : BitVec 3) : Statement (.decLead4Trunc p) := by simp [Statement, encode, Legal, openCounts]
theorem decStray (p : BitVec 6) : Statement (.decStray p) := by simp [Statement, encode, Legal, openCounts]
theorem decBadlead (p : BitVec 3) : Statement (.decBadlead p) := by simp [Statement, encode, Legal, openCounts]
theorem decCont (p : BitVec 6) : Statement (.decCont p) := by simp [Statement, encode, Legal, openCounts]
theorem decContLast (p : BitVec 6) : Statement (.decContLast p) := by simp [Statement, encode, Legal, openCounts]
theorem decBadcont (b : Byte) : Statement (.decBadcont b) := by simp [Statement, encode, Legal, openCounts]
theorem decDrain (b : Byte) : Statement (.decDrain b) := by simp [Statement, encode, Legal, openCounts]
theorem decFrame (n : Nat) : Statement (.decFrame n) := trivial

end Sys2Proof.Laws.EncodedFetchIsLegal
end

