-- ==== Sys2Proof/Laws/Step.lean ====
section
/-! SUPPORT. All an engine's turn and a step can do, for the statements over runs to cite. -/

namespace Sys2Proof.Machine

/-- A step with a scheduled move is that move. -/
theorem step_scheduled {s : State} {ev : Event} {rest : List Event} (h : s.pending = ev :: rest) :
    step s = runEvent ev (s.withPending rest) := by
  simp only [step, h]

/-- A step with nothing scheduled is a turn of the freely chosen engine. -/
theorem step_unscheduled {s : State} (h : s.pending = []) :
    step s = engineTurn (Config.freeTurn s.turns) s.tick := by
  simp only [step, h]

/-- An encoder turn whose step is enabled emits `EncodeCP` of the head of `ENC_IN`. -/
theorem engineTurn_enc_ready {s : State} {w : Word} {ws : List Word} (r : EncReady s)
    (hi : s.enc.input = w :: ws) :
    engineTurn .enc s = .next (encAfter (encodeCP w) s) := by
  simp only [engineTurn, fetch, fetchEnc_ready r hi, runFetch, decode]
  rw [exec_decodeWord, encElement_ready r]

/-- An encoder turn whose step is not enabled waits. -/
theorem engineTurn_enc_waits {s : State} (r : ¬ EncReady s) : engineTurn .enc s = .next s := by
  simp only [engineTurn, fetch, fetchEnc_waits r]

/-- All an encoder turn can do. -/
theorem engineTurn_enc_cases {s t : State} (h : engineTurn .enc s = .next t) :
    (¬ EncReady s ∧ t = s)
      ∨ ∃ w ws, EncReady s ∧ s.enc.input = w :: ws ∧ t = encAfter (encodeCP w) s := by
  by_cases r : EncReady s
  · cases hi : s.enc.input with
    | nil => exact absurd hi r.2.2.1
    | cons w ws =>
      rw [engineTurn_enc_ready r hi] at h
      cases h
      exact .inr ⟨w, ws, r, rfl, rfl⟩
  · rw [engineTurn_enc_waits r] at h
    cases h
    exact .inl ⟨r, rfl⟩

/-- A decoder turn whose step is enabled does what `decodeStep` says of the head of `DEC_IN`. -/
theorem engineTurn_dec_ready {s : State} {b : Byte} {bs : List Byte}
    (hu : UnitInv s.dec.unit s.dec.rem) (r : DecReady s) (hi : s.dec.input = b :: bs) :
    engineTurn .dec s
      = .next (decAfter (decodeStep s.cfg.decValidate s.dec.unit s.dec.rem b).1
          (decodeStep s.cfg.decValidate s.dec.unit s.dec.rem b).2 s) := by
  obtain ⟨i, hd, -⟩ := decode_byte_ok b hu r.2.1
  simp only [engineTurn, fetch, fetchDec_ready r hi, runFetch, hd]
  rw [exec_decodeByte hu hd, decElement_ready r]

/-- A decoder turn whose step is not enabled waits. -/
theorem engineTurn_dec_waits {s : State} (r : ¬ DecReady s) : engineTurn .dec s = .next s := by
  simp only [engineTurn, fetch, fetchDec_waits r]

/-- All a decoder turn can do between steps of a run. -/
theorem engineTurn_dec_cases {s t : State} (hu : UnitInv s.dec.unit s.dec.rem)
    (h : engineTurn .dec s = .next t) :
    (¬ DecReady s ∧ t = s)
      ∨ ∃ b bs, DecReady s ∧ s.dec.input = b :: bs
          ∧ t = decAfter (decodeStep s.cfg.decValidate s.dec.unit s.dec.rem b).1
              (decodeStep s.cfg.decValidate s.dec.unit s.dec.rem b).2 s := by
  by_cases r : DecReady s
  · cases hi : s.dec.input with
    | nil => exact absurd hi r.2.2.1
    | cons b bs =>
      rw [engineTurn_dec_ready hu r hi] at h
      cases h
      exact .inr ⟨b, bs, r, rfl, rfl⟩
  · rw [engineTurn_dec_waits r] at h
    cases h
    exact .inl ⟨r, rfl⟩

/-- A run of `k + 1` steps that answers a next state is a step and a run of `k`. -/
theorem runSteps_succ {k : Nat} {s t : State} (h : runSteps (k + 1) s = .next t) :
    ∃ m, step s = .next m ∧ runSteps k m = .next t := by
  simp only [runSteps] at h
  split at h
  · exact ⟨_, ‹_›, h⟩
  · cases h
  · cases h

end Sys2Proof.Machine
end

