-- ==== Sys2Proof/Tests/Slice0.lean ====
section
/-! SUPPORT. Tests of the model, their expected values taken from spec/30_encoding.md and
spec/95_test_vectors.md, and a witness for the hypotheses of every statement that has some. -/

namespace Sys2Proof.Tests

open Sys2Proof Sys2Proof.Machine

/-! ## Small states -/

/-- A configuration with the least channel depths and frames of at most seven elements. -/
def tiny (validate : Bool) : Config := ⟨validate, 3, 1, 4, 1, 1⟩

/-- A block with these engines and this schedule. -/
def block (validate : Bool) (e : Encoder) (d : Decoder) (p : List Event) : State :=
  ⟨tiny validate, e, d, ⟨[], [], none, none⟩, p, 0⟩

/-- The encoder one word before the end of a frame, with its turn next. -/
def encTurn (w : Word) : State :=
  block false ⟨true, 1, [w], []⟩ Decoder.reset [.turn .enc]

/-- The decoder inside a frame, with its turn next. -/
def decTurn (validate : Bool) (u : UnitRegs) (rem : Nat) (b : Byte) : State :=
  block validate Encoder.reset ⟨true, rem, u, [b], []⟩ [.turn .dec]

/-- The cleared unit registers in `START`. -/
def clear : UnitRegs := UnitRegs.clear .start

/-- Both engines idle, with this schedule. -/
def idle (p : List Event) : State := block false Encoder.reset Decoder.reset p

/-- Both engines busy and starved, with this schedule. -/
def starved (p : List Event) : State :=
  block false ⟨true, 2, [], []⟩ ⟨true, 2, clear, [], []⟩ p

/-- Both engines busy with both input channels and both output channels full, with this schedule. -/
def full (p : List Event) : State :=
  block false ⟨true, 2, [0x41#32], [0x41#8]⟩ ⟨true, 2, clear, [0x41#8], [0x41#32]⟩ p

/-- Both engines at the last element of their frame, with nothing scheduled. -/
def lastElements : State := block false ⟨true, 1, [0x41#32], []⟩ ⟨true, 1, clear, [0x41#8], []⟩ []

/-- What an encoder step leaves: the bytes in `ENC_OUT`, `E.rem` and `E.active`. -/
def encResult : Answer → Option (List Byte × Nat × Bool)
  | .next t => some (t.enc.output, t.enc.rem, t.enc.active)
  | .fault _ => none
  | .refused _ => none

/-- What a decoder step leaves: the words in `DEC_OUT`, the unit registers and `D.rem`. -/
def decResult : Answer → Option (List Word × UnitRegs × Nat)
  | .next t => some (t.dec.output, t.dec.unit, t.dec.rem)
  | .fault _ => none
  | .refused _ => none

/-! ## WellFormed refuses an ill-formed term of each check -/

theorem test_illformed_enc2B : (Instr.enc2B 0b00001#5 0b111111#6).wellFormed = false := by decide
theorem test_illformed_enc3B_low :
    (Instr.enc3B 0b0000#4 0b011111#6 0b111111#6).wellFormed = false := by decide
theorem test_illformed_enc3B_surrogate :
    (Instr.enc3B 0b1101#4 0b100000#6 0b000000#6).wellFormed = false := by decide
theorem test_illformed_enc4B_low :
    (Instr.enc4B 0b000#3 0b001111#6 0b111111#6 0b111111#6).wellFormed = false := by decide
theorem test_illformed_enc4B_high :
    (Instr.enc4B 0b100#3 0b010000#6 0b000000#6 0b000000#6).wellFormed = false := by decide
theorem test_illformed_encOvr : (Instr.encOvr 0x10FFFF#32).wellFormed = false := by decide
theorem test_illformed_decBadcont : (Instr.decBadcont 0b10000000#8).wellFormed = false := by decide

/-! ## Each constructor's element, written out from R52, R53, R57 and R59 to R61 -/

theorem test_decode_enc1B :
    decode (.word 0b00000000000000000000000001111111#32) = .ok (.enc1B 0b1111111#7) := by decide
theorem test_decode_enc2B :
    decode (.word 0b00000000000000000000000010100010#32) = .ok (.enc2B 0b00010#5 0b100010#6) := by
  decide
theorem test_decode_encSur :
    decode (.word 0b00000000000000001101111111111111#32) = .ok (.encSur 0b11111111111#11) := by
  decide
theorem test_decode_enc3B :
    decode (.word 0b00000000000000001110000000000000#32)
      = .ok (.enc3B 0b1110#4 0b000000#6 0b000000#6) := by decide
theorem test_decode_enc4B :
    decode (.word 0b00000000000100001111111111111111#32)
      = .ok (.enc4B 0b100#3 0b001111#6 0b111111#6 0b111111#6) := by decide
theorem test_decode_encOvr :
    decode (.word 0b00000000000100010000000000000000#32) = .ok (.encOvr 0x110000#32) := by decide
theorem test_decode_encFrame : decode (.encCommand 3) = .ok (.encFrame 3) := by decide
theorem test_decode_decAscii :
    decode (.byte .start 1 0#5 0#5 0b01000001#8) = .ok (.decAscii 0b1000001#7) := by decide
theorem test_decode_decLead2 :
    decode (.byte .start 2 0#5 0#5 0b11000010#8) = .ok (.decLead2 0b00010#5) := by decide
theorem test_decode_decLead2Trunc :
    decode (.byte .start 1 0#5 0#5 0b11000010#8) = .ok (.decLead2Trunc 0b00010#5) := by decide
theorem test_decode_decLead3 :
    decode (.byte .start 3 0#5 0#5 0b11100010#8) = .ok (.decLead3 0b0010#4) := by decide
theorem test_decode_decLead3Trunc :
    decode (.byte .start 2 0#5 0#5 0b11100010#8) = .ok (.decLead3Trunc 0b0010#4) := by decide
theorem test_decode_decLead4 :
    decode (.byte .start 4 0#5 0#5 0b11110001#8) = .ok (.decLead4 0b001#3) := by decide
theorem test_decode_decLead4Trunc :
    decode (.byte .start 3 0#5 0#5 0b11110001#8) = .ok (.decLead4Trunc 0b001#3) := by decide
theorem test_decode_decStray :
    decode (.byte .start 1 0#5 0#5 0b10111111#8) = .ok (.decStray 0b111111#6) := by decide
theorem test_decode_decBadlead :
    decode (.byte .start 4 0#5 0#5 0b11111001#8) = .ok (.decBadlead 0b001#3) := by decide
theorem test_decode_decCont :
    decode (.byte .cont 2 4#5 16#5 0b10000010#8) = .ok (.decCont 0b000010#6) := by decide
theorem test_decode_decContLast :
    decode (.byte .cont 1 10#5 16#5 0b10101100#8) = .ok (.decContLast 0b101100#6) := by decide
theorem test_decode_decBadcont :
    decode (.byte .cont 1 5#5 11#5 0b01000001#8) = .ok (.decBadcont 0b01000001#8) := by decide
theorem test_decode_decDrain :
    decode (.byte .drain 1 0#5 0#5 0b10000010#8) = .ok (.decDrain 0b10000010#8) := by decide
theorem test_decode_decFrame : decode (.decCommand 2) = .ok (.decFrame 2) := by decide

/-- The host's probe of an element without decoder state, at both element widths (log 6). -/
theorem test_decode_table_words :
    decodeTableWord 32 0x20AC = some (.enc3B 0x2#4 0x02#6 0x2C#6)
      ∧ decodeTableWord 8 0xF1 = some (.decLead4 0b001#3) ∧ decodeTableWord 0 0 = none := by decide

/-! ## Effects: vectors T-E, T-D and the traces P4 to P6 of spec/95_test_vectors.md -/

theorem test_effect_enc1B : encResult (step (encTurn 0x7F#32)) = some ([0x7F#8], 0, false) := by
  decide
theorem test_effect_enc2B :
    encResult (step (encTurn 0x7FF#32)) = some ([0xDF#8, 0xBF#8], 0, false) := by decide
theorem test_effect_encSur :
    encResult (step (encTurn 0xDFFF#32)) = some ([0xEF#8, 0xBF#8, 0xBD#8], 0, false) := by decide
theorem test_effect_enc3B :
    encResult (step (encTurn 0xD7FF#32)) = some ([0xED#8, 0x9F#8, 0xBF#8], 0, false) := by decide
theorem test_effect_enc4B :
    encResult (step (encTurn 0x233B4#32)) = some ([0xF0#8, 0xA3#8, 0x8E#8, 0xB4#8], 0, false) := by
  decide
theorem test_effect_encOvr :
    encResult (step (encTurn 0x1FFFFF#32)) = some ([0xEF#8, 0xBF#8, 0xBD#8], 0, false) := by decide
theorem test_effect_encFrame :
    encResult (step (idle [.encCommand 3])) = some ([], 3, true)
      ∧ encResult (step (idle [.encCommand 0])) = some ([], 0, false) := by decide

/-- P5, step 10. -/
theorem test_effect_decAscii :
    decResult (step (decTurn false clear 1 0x41#8)) = some ([0x41#32], clear, 0) := by decide
/-- P5, step 1. -/
theorem test_effect_decLead2 :
    decResult (step (decTurn false clear 7 0xC0#8)) = some ([], ⟨.cont, 0x0#32, 5#5, 11#5⟩, 6) := by
  decide
/-- T-D-14. -/
theorem test_effect_decLead2Trunc :
    decResult (step (decTurn false clear 1 0xC2#8))
      = some ([0xFFFD#32], ⟨.drain, 0#32, 0#5, 0#5⟩, 0) := by decide
/-- P5, step 3. -/
theorem test_effect_decLead3 :
    decResult (step (decTurn false clear 3 0xED#8)) = some ([], ⟨.cont, 0xD#32, 4#5, 16#5⟩, 2) := by
  decide
/-- P6a, step 1. -/
theorem test_effect_decLead3Trunc :
    decResult (step (decTurn false clear 2 0xE2#8))
      = some ([0xFFFD#32], ⟨.drain, 0#32, 0#5, 0#5⟩, 1) := by decide
/-- P5, step 6. -/
theorem test_effect_decLead4 :
    decResult (step (decTurn false clear 5 0xF4#8)) = some ([], ⟨.cont, 0x4#32, 3#5, 21#5⟩, 4) := by
  decide
/-- T-D-21, step 1. -/
theorem test_effect_decLead4Trunc :
    decResult (step (decTurn false clear 3 0xF0#8))
      = some ([0xFFFD#32], ⟨.drain, 0#32, 0#5, 0#5⟩, 2) := by decide
/-- P6b. -/
theorem test_effect_decStray :
    decResult (step (decTurn false clear 1 0xAC#8)) = some ([0xFFFD#32], clear, 0) := by decide
/-- T-D-10, step 1. -/
theorem test_effect_decBadlead :
    decResult (step (decTurn false clear 3 0xF8#8)) = some ([0xFFFD#32], clear, 2) := by decide
/-- P5, steps 4 and 8. -/
theorem test_effect_decCont :
    decResult (step (decTurn false ⟨.cont, 0xD#32, 4#5, 16#5⟩ 7 0xA0#8))
        = some ([], ⟨.cont, 0x360#32, 10#5, 16#5⟩, 6)
      ∧ decResult (step (decTurn false ⟨.cont, 0x110#32, 9#5, 21#5⟩ 3 0x80#8))
        = some ([], ⟨.cont, 0x4400#32, 15#5, 21#5⟩, 2) := by decide
/-- P4b, step 11: a value of four bytes, with either setting of the validator. -/
theorem test_effect_decContLast :
    decResult (step (decTurn false ⟨.cont, 0x8CE#32, 15#5, 21#5⟩ 1 0xB4#8))
        = some ([0x233B4#32], clear, 0)
      ∧ decResult (step (decTurn true ⟨.cont, 0x8CE#32, 15#5, 21#5⟩ 1 0xB4#8))
        = some ([0x233B4#32], clear, 0) := by decide
/-- P5, steps 2, 5 and 9: the validator's three causes, each replaced by the marker, and step 5 without
the validator. -/
theorem test_effect_decContLast_rejected :
    decResult (step (decTurn true ⟨.cont, 0x0#32, 5#5, 11#5⟩ 2 0x80#8)) = some ([0xFFFD#32], clear, 1)
      ∧ decResult (step (decTurn true ⟨.cont, 0x360#32, 10#5, 16#5⟩ 2 0x80#8))
        = some ([0xFFFD#32], clear, 1)
      ∧ decResult (step (decTurn true ⟨.cont, 0x4400#32, 15#5, 21#5⟩ 2 0x80#8))
        = some ([0xFFFD#32], clear, 1)
      ∧ decResult (step (decTurn false ⟨.cont, 0x360#32, 10#5, 16#5⟩ 2 0x80#8))
        = some ([0xD800#32], clear, 1) := by decide
/-- T-D-11, step 2. -/
theorem test_effect_decBadcont :
    decResult (step (decTurn false ⟨.cont, 0x2#32, 5#5, 11#5⟩ 1 0x41#8))
      = some ([0xFFFD#32], clear, 0) := by decide
/-- P6a, step 2. -/
theorem test_effect_decDrain :
    decResult (step (decTurn false ⟨.drain, 0#32, 0#5, 0#5⟩ 1 0x82#8))
      = some ([], ⟨.drain, 0#32, 0#5, 0#5⟩, 0) := by decide
/-- R36: a frame command resets the mode that the frame before it left. -/
theorem test_effect_decFrame :
    decResult (step (block false Encoder.reset ⟨false, 0, ⟨.drain, 0#32, 0#5, 0#5⟩, [], []⟩
      [.decCommand 1])) = some ([], clear, 1) := by decide

/-- The placed word runs as the first step after reset. -/
theorem test_placed_word_runs :
    encResult (step (State.reset.withFetchWord 32 0x20AC))
        = some ([0xE2#8, 0x82#8, 0xAC#8], 0, false)
      ∧ decResult (step (State.reset.withFetchWord 8 0xE2))
        = some ([], ⟨.cont, 0x2#32, 4#5, 16#5⟩, 3) := by decide

/-- T-D-25, T-D-26, T-D-27 and T-D-28: the causes R111 gives, and their codes of R117. -/
theorem test_validator_causes :
    (validatorCause 0xD800#32 3).code = 7 ∧ (validatorCause 0xDFFF#32 3).code = 7
      ∧ (validatorCause 0xFFFF#32 4).code = 6 ∧ (validatorCause 0x110000#32 4).code = 8 := by decide

/-! ## Witnesses: each statement's hypotheses, met together -/

/-- A decoder in the middle of a 4-byte unit, reset; and an idle engine. -/
theorem witness_HardwareResetFromAnyState :
    (block false ⟨true, 7, [0x41#32], [0x41#8]⟩ ⟨true, 3, ⟨.cont, 1#32, 3#5, 21#5⟩, [0x80#8], []⟩
        [.hardwareReset]).pending = .hardwareReset :: []
      ∧ (idle []).busy .enc = false ∧ (idle []).busy .dec = false := by decide

theorem witness_EveryStepKeepsTheInvariant :
    (decTurn true ⟨.cont, 0x82#32, 10#5, 16#5⟩ 1 0xAC#8).Inv
      ∧ ∃ t, step (decTurn true ⟨.cont, 0x82#32, 10#5, 16#5⟩ 1 0xAC#8) = .next t :=
  ⟨by decide, _, rfl⟩

theorem witness_DecodeOfEncodeIsTheInstruction :
    (Instr.enc4B 0b100#3 0b001111#6 0b111111#6 0b111111#6).WellFormed
      ∧ (Instr.decBadcont 0xC0#8).WellFormed := by decide

theorem witness_DecodedInstructionCarriesItsElement :
    ∃ i, decode (.byte .cont 7 3#5 21#5 0xBF#8) = .ok i := ⟨_, rfl⟩

theorem witness_StepRunsTheSelectedInstruction :
    ((encTurn 0xD800#32).pending = .turn .enc :: [] ∧ EncReady (encTurn 0xD800#32)
        ∧ (encTurn 0xD800#32).enc.input = 0xD800#32 :: [])
      ∧ ((decTurn false clear 1 0xC2#8).pending = .turn .dec :: []
        ∧ DecReady (decTurn false clear 1 0xC2#8)
        ∧ (decTurn false clear 1 0xC2#8).dec.input = 0xC2#8 :: []
        ∧ decode (.byte .start 1 0#5 0#5 0xC2#8) = .ok (.decLead2Trunc 2#5))
      ∧ (idle [.encCommand 7]).pending = .encCommand 7 :: []
      ∧ (idle [.decCommand 0]).pending = .decCommand 0 :: []
      ∧ ((full [.turn .enc]).pending = .turn .enc :: [] ∧ ¬ EncReady (full [.turn .enc]))
      ∧ ((starved [.turn .dec]).pending = .turn .dec :: [] ∧ ¬ DecReady (starved [.turn .dec]))
      ∧ (idle []).pending = [] := by decide

theorem witness_BitwIsTheBitWidth : 1#32 ≠ 0#32 ∧ 0x80000000#32 ≠ 0#32 := by decide

/-- One element at the boundary count of each row. -/
theorem witness_SelectionInStart :
    (formatOf 0x7F#8 = .ascii ∧ formatOf 0xC0#8 = .lead2 ∧ formatOf 0xDF#8 = .lead2
      ∧ formatOf 0xE0#8 = .lead3 ∧ formatOf 0xEF#8 = .lead3 ∧ formatOf 0xF0#8 = .lead4
      ∧ formatOf 0xF7#8 = .lead4 ∧ formatOf 0x80#8 = .cont ∧ formatOf 0xF8#8 = .bad)
      ∧ 1 ≤ 1 ∧ 2 ≤ 2 ∧ 3 ≤ 3 ∧ 4 ≤ 4 := by decide

theorem witness_SelectionInCont :
    (formatOf 0xBF#8 = .cont ∧ (9#5).toNat + 6 < (21#5).toNat)
      ∧ (formatOf 0x80#8 = .cont ∧ (15#5).toNat + 6 = (21#5).toNat)
      ∧ formatOf 0xC0#8 ≠ .cont ∧ formatOf 0x7F#8 ≠ .cont
      ∧ UnitInv ⟨.cont, 0x7FFF#32, 15#5, 21#5⟩ 1 := by decide

theorem witness_Enc1BEmitsTheWordAsOneByte :
    bitw 0x7F#32 ≤ 7 ∧ EncReady (encTurn 0x7F#32) := by decide

theorem witness_Enc2BEmitsTwoMarkedBytes :
    8 ≤ bitw 0x80#32 ∧ bitw 0x7FF#32 ≤ 11 ∧ 8 ≤ bitw 0x7FF#32 ∧ EncReady (encTurn 0x7FF#32) := by
  decide

theorem witness_EncSurEmitsTheMarker :
    12 ≤ bitw 0xDFFF#32 ∧ bitw 0xDFFF#32 ≤ 16 ∧ 0xD800 ≤ (0xDFFF#32).toNat
      ∧ (0xDFFF#32).toNat ≤ 0xDFFF ∧ EncReady (encTurn 0xDFFF#32) := by decide

theorem witness_Enc3BEmitsThreeMarkedBytes :
    12 ≤ bitw 0xE000#32 ∧ bitw 0xE000#32 ≤ 16
      ∧ ¬ (0xD800 ≤ (0xE000#32).toNat ∧ (0xE000#32).toNat ≤ 0xDFFF)
      ∧ EncReady (encTurn 0xE000#32) := by decide

theorem witness_Enc4BEmitsFourMarkedBytes :
    17 ≤ bitw 0x10FFFF#32 ∧ bitw 0x10FFFF#32 ≤ 21 ∧ (0x10FFFF#32).toNat ≤ 0x10FFFF
      ∧ EncReady (encTurn 0x10FFFF#32) := by decide

theorem witness_EncOvrEmitsTheMarker :
    0x10FFFF < (0x110000#32).toNat ∧ EncReady (encTurn 0x110000#32) := by decide

theorem witness_EncFrameStartsAFrameOrIsRefused :
    ((idle []).enc.active = false ∧ 7 ≤ (idle []).cfg.maxFrame) ∧ (starved []).enc.active = true
      ∧ (idle []).cfg.maxFrame < 8 := by decide

theorem witness_EncoderElementStep :
    ((encTurn 0x41#32).pending = .turn .enc :: [] ∧ (encTurn 0x41#32).enc.active = true
        ∧ 1 ≤ (encTurn 0x41#32).enc.rem ∧ (encTurn 0x41#32).enc.input = 0x41#32 :: []
        ∧ (encTurn 0x41#32).enc.output.length + 4 ≤ (encTurn 0x41#32).cfg.encOutDepth)
      ∧ (idle [.turn .enc]).enc.active = false ∧ (starved [.turn .enc]).enc.input = []
      ∧ (full [.turn .enc]).cfg.encOutDepth < (full [.turn .enc]).enc.output.length + 4 := by decide

theorem witness_EncoderIsTotalWithBoundedOutput : EncReady (encTurn 0xFFFFFFFF#32) := by decide

/-- A frame whose word is pushed, taken and popped while the decoder has turns too. -/
theorem witness_EncoderFrameOutputUnderAnySchedule :
    ∃ t, runSteps 6 (idle [.encCommand 1, .turn .dec, .pushEnc 0x80#32, .turn .enc, .popEnc, .turn .enc])
        = .next t ∧ t.enc.active = false ∧ t.encProduced = [0xC2#8, 0x80#8] :=
  ⟨_, rfl, by decide, by decide⟩

/-- A frame of two words in a state of the default configuration, and the frame of none. -/
theorem witness_EncoderFrameCompletesInItsTurns :
    ∃ s : State,
      s.pending = .encCommand [0x41#32, 0xD800#32].length
        :: (List.replicate [0x41#32, 0xD800#32].length (.turn .enc) ++ [])
      ∧ s.enc.active = false ∧ [0x41#32, 0xD800#32].length ≤ s.cfg.maxFrame
      ∧ s.enc.input = [0x41#32, 0xD800#32] ++ []
      ∧ s.enc.output.length + 4 * [0x41#32, 0xD800#32].length ≤ s.cfg.encOutDepth :=
  ⟨(State.reset.withEnc ⟨false, 0, [0x41#32, 0xD800#32], []⟩).withPending
      [.encCommand 2, .turn .enc, .turn .enc], by decide⟩

theorem witness_DecAsciiPassesTheByteThrough :
    0x7F#8 &&& 0x80#8 = 0#8 ∧ DecReady (decTurn false clear 1 0x7F#8) := by decide

theorem witness_DecLead2OpensATwoByteUnit :
    0xC0#8 >>> 5 = 0b110#8 ∧ 0xDF#8 >>> 5 = 0b110#8 ∧ DecReady (decTurn false clear 2 0xC0#8) := by
  decide

theorem witness_DecLead2TruncRejectsAndDrains :
    0xDF#8 >>> 5 = 0b110#8 ∧ DecReady (decTurn true clear 1 0xDF#8)
      ∧ (decTurn true clear 1 0xDF#8).dec.rem = 1
      ∧ ∃ t, exec (.decLead2Trunc 31#5) (decTurn true clear 1 0xDF#8) = .next t :=
  ⟨by decide, by decide, by decide, _, rfl⟩

theorem witness_DecLead3OpensAThreeByteUnit :
    0xE0#8 >>> 4 = 0b1110#8 ∧ 0xEF#8 >>> 4 = 0b1110#8 ∧ DecReady (decTurn false clear 3 0xE0#8) := by
  decide

theorem witness_DecLead3TruncRejectsAndDrains :
    0xEF#8 >>> 4 = 0b1110#8 ∧ DecReady (decTurn true clear 1 0xEF#8)
      ∧ DecReady (decTurn true clear 2 0xEF#8) := by decide

theorem witness_DecLead4OpensAFourByteUnit :
    0xF0#8 >>> 3 = 0b11110#8 ∧ 0xF7#8 >>> 3 = 0b11110#8 ∧ DecReady (decTurn false clear 4 0xF7#8) := by
  decide

theorem witness_DecLead4TruncRejectsAndDrains :
    0xF7#8 >>> 3 = 0b11110#8 ∧ DecReady (decTurn true clear 1 0xF7#8)
      ∧ DecReady (decTurn true clear 3 0xF7#8) := by decide

theorem witness_DecStrayRejectsOneByte :
    0xBF#8 &&& 0xC0#8 = 0x80#8 ∧ DecReady (decTurn false clear 1 0xBF#8) := by decide

theorem witness_DecBadleadRejectsOneByte :
    0xF8#8 >>> 3 = 0b11111#8 ∧ 0xFF#8 >>> 3 = 0b11111#8
      ∧ DecReady (decTurn false clear 1 0xFF#8) := by decide

theorem witness_DecContAccumulatesSixBits :
    (0xBF#8 &&& 0xC0#8 = 0x80#8 ∧ (9#5).toNat + 6 < (21#5).toNat)
      ∧ DecReady (decTurn false ⟨.cont, 0x1FF#32, 9#5, 21#5⟩ 2 0xBF#8)
      ∧ UnitInv ⟨.cont, 0x1FF#32, 9#5, 21#5⟩ 2 := by decide

theorem witness_DecContLastEmitsTheCompletedValue :
    (0xBF#8 &&& 0xC0#8 = 0x80#8 ∧ (15#5).toNat + 6 = (21#5).toNat)
      ∧ DecReady (decTurn true ⟨.cont, 0x7FFF#32, 15#5, 21#5⟩ 1 0xBF#8)
      ∧ (decTurn true ⟨.cont, 0x7FFF#32, 15#5, 21#5⟩ 1 0xBF#8).dec.unit.exp = 21#5
      ∧ UnitInv ⟨.cont, 0x7FFF#32, 15#5, 21#5⟩ 1 := by decide

theorem witness_DecBadcontSwallowsTheByte :
    0xC0#8 &&& 0xC0#8 ≠ 0x80#8 ∧ 0x7F#8 &&& 0xC0#8 ≠ 0x80#8
      ∧ DecReady (decTurn false ⟨.cont, 0x2#32, 5#5, 11#5⟩ 1 0xC0#8)
      ∧ (decTurn false ⟨.cont, 0x2#32, 5#5, 11#5⟩ 1 0xC0#8).dec.unit.mode = .cont := by decide

/-- A truncating operation enters `DRAIN`, and a frame command leaves it. -/
theorem witness_DecDrainConsumesWithoutOutput :
    DecReady (decTurn false ⟨.drain, 0#32, 0#5, 0#5⟩ 1 0x82#8)
      ∧ (∃ t, exec (.decLead4Trunc 0#3) (decTurn false clear 3 0xF0#8) = .next t
          ∧ (decTurn false clear 3 0xF0#8).dec.unit.mode ≠ .drain ∧ t.dec.unit.mode = .drain)
      ∧ (∃ t, step (block false Encoder.reset ⟨false, 0, ⟨.drain, 0#32, 0#5, 0#5⟩, [], []⟩
          [.decCommand 1]) = .next t ∧ t.dec.unit.mode ≠ .drain)
      ∧ UnitInv ⟨.drain, 0#32, 0#5, 0#5⟩ 2 :=
  ⟨by decide, ⟨_, rfl, by decide, by decide⟩, ⟨_, rfl, by decide⟩, by decide⟩

theorem witness_DecFrameStartsAFrameOrIsRefused :
    ((idle []).dec.active = false ∧ 7 ≤ (idle []).cfg.maxFrame)
      ∧ ((starved []).dec.active = true ∧ (starved []).dec.input = [])
      ∧ (idle []).cfg.maxFrame < 8 := by decide

theorem witness_DecoderElementStep :
    ((decTurn true ⟨.cont, 0x82#32, 10#5, 16#5⟩ 1 0xAC#8).pending = .turn .dec :: []
        ∧ (decTurn true ⟨.cont, 0x82#32, 10#5, 16#5⟩ 1 0xAC#8).dec.active = true
        ∧ UnitInv ⟨.cont, 0x82#32, 10#5, 16#5⟩ 1
        ∧ DecReady (decTurn true ⟨.cont, 0x82#32, 10#5, 16#5⟩ 1 0xAC#8))
      ∧ (idle [.turn .dec]).dec.active = false ∧ (starved [.turn .dec]).dec.input = []
      ∧ (full [.turn .dec]).cfg.decOutDepth < (full [.turn .dec]).dec.output.length + 1 := by decide

theorem witness_DecoderIsTotal :
    UnitInv ⟨.cont, 0x82#32, 10#5, 16#5⟩ 1
      ∧ DecReady (decTurn true ⟨.cont, 0x82#32, 10#5, 16#5⟩ 1 0xAC#8)
      ∧ (decTurn true ⟨.cont, 0x82#32, 10#5, 16#5⟩ 1 0xAC#8).dec.input = 0xAC#8 :: [] := by decide

/-- A frame that waits for its byte, and a frame one byte short of its end. -/
theorem witness_DecoderFrameOutputUnderAnySchedule :
    (∃ t, runSteps 4 (idle [.decCommand 1, .turn .dec, .pushDec 0x80#8, .turn .dec]) = .next t
        ∧ t.dec.active = false ∧ t.decProduced = [0xFFFD#32])
      ∧ ∃ t, runSteps 3 (idle [.decCommand 2, .pushDec 0xC2#8, .turn .dec]) = .next t
        ∧ t.dec.active = true ∧ t.dec.rem = 1 :=
  ⟨⟨_, rfl, by decide, by decide⟩, ⟨_, rfl, by decide, by decide⟩⟩

theorem witness_DecoderFrameCompletesInItsTurns :
    ∃ s : State,
      s.pending = .decCommand [0xC2#8, 0xA2#8].length
        :: (List.replicate [0xC2#8, 0xA2#8].length (.turn .dec) ++ [])
      ∧ s.dec.active = false ∧ [0xC2#8, 0xA2#8].length ≤ s.cfg.maxFrame
      ∧ s.dec.input = [0xC2#8, 0xA2#8] ++ []
      ∧ s.dec.output.length + [0xC2#8, 0xA2#8].length ≤ s.cfg.decOutDepth :=
  ⟨(State.reset.withDec ⟨false, 0, clear, [0xC2#8, 0xA2#8], []⟩).withPending
      [.decCommand 2, .turn .dec, .turn .dec], by decide⟩

/-- A turn that is not enabled answers a next state. -/
theorem witness_turns_without_a_step :
    (∃ t, step (idle [.turn .enc]) = .next t) ∧ (∃ t, step (starved [.turn .enc]) = .next t)
      ∧ (∃ t, step (full [.turn .enc]) = .next t) ∧ (∃ t, step (idle [.turn .dec]) = .next t)
      ∧ (∃ t, step (starved [.turn .dec]) = .next t) ∧ (∃ t, step (full [.turn .dec]) = .next t)
      ∧ (∃ t, engineTurn .enc (idle []) = .next t) ∧ ∃ t, engineTurn .dec (starved []) = .next t :=
  ⟨⟨_, rfl⟩, ⟨_, rfl⟩, ⟨_, rfl⟩, ⟨_, rfl⟩, ⟨_, rfl⟩, ⟨_, rfl⟩, ⟨_, rfl⟩, ⟨_, rfl⟩⟩

/-- Each length at its least value, its greatest value below that, and the surrogates' edges. -/
theorem witness_ValidatorReplacesInvalidUnits :
    DecReady (decTurn true ⟨.cont, 0x2#32, 5#5, 11#5⟩ 1 0x80#8)
      ∧ (0x2#32 <<< 6) ||| (0#6).setWidth 32 = 0x80#32
      ∧ DecReady (decTurn true ⟨.cont, 0x1F#32, 10#5, 16#5⟩ 1 0xBF#8)
      ∧ (0x1F#32 <<< 6) ||| (0x3F#6).setWidth 32 = 0x7FF#32
      ∧ DecReady (decTurn true ⟨.cont, 0x43FF#32, 15#5, 21#5⟩ 1 0xBF#8)
      ∧ (0x43FF#32 <<< 6) ||| (0x3F#6).setWidth 32 = 0x10FFFF#32
      ∧ (decTurn true clear 1 0#8).cfg.decValidate = true
      ∧ (decTurn false clear 1 0#8).cfg.decValidate = false := by decide

theorem witness_ValidatorCauseIsTheFirstTestThatHolds :
    valid 0x7F#32 2 = false ∧ valid 0xD800#32 3 = false ∧ valid 0x110000#32 4 = false := by decide

theorem witness_ValidatorChangesOnlyTheEmittedValue :
    (UnitInv ⟨.cont, 0x0#32, 5#5, 11#5⟩ 1
      ∧ (decodeStep true ⟨.cont, 0x0#32, 5#5, 11#5⟩ 1 0x80#8).2
        ≠ (decodeStep false ⟨.cont, 0x0#32, 5#5, 11#5⟩ 1 0x80#8).2)
      ∧ (∃ t, exec (.decContLast 0#6) (decTurn true ⟨.cont, 0x0#32, 5#5, 11#5⟩ 1 0x80#8) = .next t)
      ∧ ∃ t, exec (.decContLast 0#6) (decTurn false ⟨.cont, 0x0#32, 5#5, 11#5⟩ 1 0x80#8) = .next t :=
  ⟨by decide, ⟨_, rfl⟩, ⟨_, rfl⟩⟩

theorem witness_DecodeOfEncodedFrameIsTheLegalisedFrame :
    ((0x10FFFF#32).toNat ≤ 0x10FFFF ∧ ¬ (0xD800 ≤ (0x10FFFF#32).toNat ∧ (0x10FFFF#32).toNat ≤ 0xDFFF))
      ∧ Except.ok (.decAscii 0x41#7) ∈ frameOps true (UnitRegs.clear .start) (encodeFrame [0x41#32]) :=
  ⟨by decide, by simp [encodeFrame, frameOps, show encodeCP 0x41#32 = [0x41#8] by decide,
    show decode (.byte .start 1 0#5 0#5 0x41#8) = .ok (.decAscii 0x41#7) by decide, UnitRegs.clear]⟩

theorem witness_OnlyHostViolationsAreRefused :
    ((starved []).enc.active = true ∧ (starved []).dec.active = true)
      ∧ ((idle []).enc.active = false ∧ (idle []).dec.active = false ∧ (idle []).cfg.maxFrame < 8)
      ∧ ((full []).cfg.encInDepth ≤ (full []).enc.input.length
        ∧ (full []).cfg.decInDepth ≤ (full []).dec.input.length)
      ∧ ((idle []).enc.output = [] ∧ (idle []).dec.output = [])
      ∧ ((idle []).Inv ∧ (idle [.popEnc]).Inv ∧ (starved [.turn .dec]).Inv ∧ (full [.pushEnc 0#32]).Inv) :=
  ⟨by decide, by decide, by decide, by decide, ⟨by decide, by decide, by decide, by decide⟩⟩

theorem witness_FrameCursorMovesByOneElement :
    (∃ t, step (encTurn 0x41#32) = .next t) ∧ ∃ t, step (decTurn false clear 1 0x41#8) = .next t :=
  ⟨⟨_, rfl⟩, ⟨_, rfl⟩⟩

/-- The commands' counts at 0 and at `MAX_FRAME`. -/
theorem witness_FrameCursorMovesByOneElement_commands :
    EncReady (encTurn 0x41#32) ∧ DecReady (decTurn false clear 1 0x41#8) ∧ UnitInv clear 1
      ∧ (∃ t, step (idle [.encCommand 0]) = .next t ∧ t.enc.rem = 0)
      ∧ ∃ t, step (idle [.decCommand 7]) = .next t ∧ t.dec.rem = 7 :=
  ⟨by decide, by decide, by decide, ⟨_, rfl, rfl⟩, ⟨_, rfl, rfl⟩⟩

/-- An encoder turn that ends its frame, so that the busy bit changes. -/
theorem witness_ParametersAndBusyBitsChangeOnlyAsSaid :
    ∃ t, (encTurn 0x41#32).pending = .turn .enc :: [] ∧ step (encTurn 0x41#32) = .next t
      ∧ t.enc.active ≠ (encTurn 0x41#32).enc.active :=
  ⟨_, rfl, rfl, by decide⟩

/-- An empty schedule in which either engine's free turn ends that engine's frame, and the two turns
themselves. -/
theorem witness_ParametersAndBusyBitsChangeOnlyAsSaid_free :
    (lastElements.pending = []
      ∧ ∃ t, step lastElements = .next t
        ∧ (t.enc.active ≠ lastElements.enc.active ∨ t.dec.active ≠ lastElements.dec.active))
      ∧ (∃ t, engineTurn .enc lastElements = .next t ∧ t.enc.active ≠ lastElements.enc.active)
      ∧ ∃ t, engineTurn .dec lastElements = .next t ∧ t.dec.active ≠ lastElements.dec.active := by
  refine ⟨⟨rfl, ?_⟩, ⟨_, rfl, by decide⟩, ⟨_, rfl, by decide⟩⟩
  show ∃ t, engineTurn (Config.freeTurn 0) lastElements.tick = .next t ∧ _
  cases Config.freeTurn 0
  · exact ⟨_, rfl, by decide⟩
  · exact ⟨_, rfl, by decide⟩

theorem witness_EngineTurnsAreIndependent :
    (∃ t, engineTurn .enc (encTurn 0x41#32) = .next t)
      ∧ ∃ t, engineTurn .dec (decTurn false clear 1 0x41#8) = .next t :=
  ⟨⟨_, rfl⟩, ⟨_, rfl⟩⟩

theorem witness_OutputsFollowTheOrderOfInputs :
    (decTurn false clear 1 0x41#8).Inv ∧ (∃ t, step (decTurn false clear 1 0x41#8) = .next t)
      ∧ (∃ t, step (encTurn 0x41#32) = .next t) ∧ ∃ t, step (idle [.pushDec 0#8]) = .next t :=
  ⟨by decide, ⟨_, rfl⟩, ⟨_, rfl⟩, ⟨_, rfl⟩⟩

/-- A turn that breaks a unit: the byte is consumed, and is not read again. -/
theorem witness_DecoderNeverLooksAhead_enabled :
    ∃ s t t' : State, DecReady { s with dec := { s.dec with input := 0xC3#8 :: [0x41#8] } }
      ∧ engineTurn .dec { s with dec := { s.dec with input := 0xC3#8 :: [0x41#8] } } = .next t
      ∧ engineTurn .dec { s with dec := { s.dec with input := 0xC3#8 :: [] } } = .next t' :=
  ⟨decTurn false ⟨.cont, 0x2#32, 5#5, 11#5⟩ 1 0#8, _, _, by decide, rfl, rfl⟩

/-- A turn that waits for room in `DEC_OUT`. -/
theorem witness_DecoderNeverLooksAhead_waiting :
    ∃ s t t' : State, ¬ DecReady { s with dec := { s.dec with input := 0x41#8 :: [0x42#8] } }
      ∧ engineTurn .dec { s with dec := { s.dec with input := 0x41#8 :: [0x42#8] } } = .next t
      ∧ engineTurn .dec { s with dec := { s.dec with input := 0x41#8 :: [] } } = .next t' :=
  ⟨full [], _, _, by decide, rfl, rfl⟩

theorem witness_DecoderNeverLooksAhead :
    ∃ s t t' : State,
      engineTurn .dec { s with dec := { s.dec with input := 0xC2#8 :: [0x80#8] } } = .next t
      ∧ engineTurn .dec { s with dec := { s.dec with input := 0xC2#8 :: [0x41#8] } } = .next t' :=
  ⟨decTurn false clear 2 0xC2#8, _, _, rfl, rfl⟩

theorem witness_HostPushesAndPopsAreFirstInFirstOut :
    (idle [.pushEnc 1#32]).enc.input.length < (idle [.pushEnc 1#32]).cfg.encInDepth
      ∧ (idle [.pushDec 1#8]).dec.input.length < (idle [.pushDec 1#8]).cfg.decInDepth
      ∧ (full [.popEnc]).enc.output = 0x41#8 :: [] ∧ (full [.popDec]).dec.output = 0x41#32 :: [] := by
  decide

theorem witness_EncoderOperationsFrame :
    familyOf (.encOvr 0xFFFFFFFF#32) = .encoder ∧ EncReady (encTurn 0xFFFFFFFF#32)
      ∧ (∃ t, exec (.encOvr 0xFFFFFFFF#32) (encTurn 0xFFFFFFFF#32) = .next t)
      ∧ ¬ EncReady (idle []) ∧ ∃ t, exec (.encOvr 0xFFFFFFFF#32) (idle []) = .next t :=
  ⟨by decide, by decide, ⟨_, rfl⟩, by decide, ⟨_, rfl⟩⟩

theorem witness_DecoderOperationsFrame :
    familyOf (.decCont 1#6) = .decoder
      ∧ DecReady (decTurn false ⟨.cont, 0xD#32, 4#5, 16#5⟩ 2 0x81#8)
      ∧ (∃ t, exec (.decCont 1#6) (decTurn false ⟨.cont, 0xD#32, 4#5, 16#5⟩ 2 0x81#8) = .next t)
      ∧ ¬ DecReady (idle []) ∧ ∃ t, exec (.decDrain 0#8) (idle []) = .next t :=
  ⟨by decide, by decide, ⟨_, rfl⟩, by decide, ⟨_, rfl⟩⟩

theorem witness_FrameCommandsFrame :
    (∃ t, exec (.encFrame 7) (idle []) = .next t) ∧ ∃ t, exec (.decFrame 7) (idle []) = .next t :=
  ⟨⟨_, rfl⟩, ⟨_, rfl⟩⟩

end Sys2Proof.Tests
end

section
/-! PROOFS. The family 10_state.md: reset, the invariant and the frame cursors. -/

namespace Sys2Proof.Machine

/-! ## What a decoder turn can do in any state, R28's included or not -/

/-- A completed value with the validator on is refused or sent out by one element step. -/
theorem emitValidated_element {v : Word} {s t : State} (h : emitValidated v s = .next t) :
    ∃ out, decElement (UnitRegs.clear .start) out s = .next t := by
  unfold emitValidated at h
  split at h
  · cases h
  · split at h <;> exact ⟨_, h⟩

/-- A decoder operation that answers a next state is one decoder element step. -/
theorem exec_decoder_element {i : Instr} {s t : State} (hf : familyOf i = .decoder)
    (h : exec i s = .next t) : ∃ u out, decElement u out s = .next t := by
  cases i with
  | enc1B _ | enc2B _ _ | encSur _ | enc3B _ _ _ | enc4B _ _ _ _ | encOvr _ | encFrame _
  | decFrame _ => cases hf
  | decContLast p =>
    change execDecContLast p s = .next t at h
    unfold execDecContLast at h
    split at h
    · exact ⟨_, emitValidated_element h⟩
    · exact ⟨_, _, h⟩
  | decAscii _ | decLead2 _ | decLead2Trunc _ | decLead3 _ | decLead3Trunc _ | decLead4 _
  | decLead4Trunc _ | decStray _ | decBadlead _ | decCont _ | decBadcont _ | decDrain _ =>
    exact ⟨_, _, h⟩

/-- Every operation selected in `START` is of the decoder family. -/
theorem familyOf_decodeStart (rem : Nat) (b : Byte) : familyOf (decodeStart rem b) = .decoder := by
  unfold decodeStart
  cases formatOf b with
  | ascii | cont | bad => rfl
  | lead2 | lead3 | lead4 =>
    dsimp only
    split <;> rfl

/-- Every operation selected in `CONT` is of the decoder family. -/
theorem familyOf_of_decodeCont {bits exp : Count5} {b : Byte} {i : Instr}
    (h : decodeCont bits exp b = .ok i) : familyOf i = .decoder := by
  unfold decodeCont at h
  split_ifs at h <;> cases h <;> rfl

/-- Every operation a byte selects is of the decoder family. -/
theorem familyOf_of_decode_byte {mode : Mode} {rem : Nat} {bits exp : Count5} {b : Byte} {i : Instr}
    (h : decode (.byte mode rem bits exp b) = .ok i) : familyOf i = .decoder := by
  simp only [decode, decodeByte] at h
  split at h
  · cases h
  · cases mode with
    | start => cases h; exact familyOf_decodeStart rem b
    | cont => exact familyOf_of_decodeCont h
    | drain => cases h; rfl

/-- A byte's operation that answers a next state is one decoder element step. -/
theorem runFetch_byte_element {mode : Mode} {rem : Nat} {bits exp : Count5} {b : Byte} {s t : State}
    (h : runFetch (.byte mode rem bits exp b) s = .next t) :
    ∃ u out, decElement u out s = .next t := by
  unfold runFetch at h
  split at h
  · next hd => exact exec_decoder_element (familyOf_of_decode_byte hd) h
  · cases h

/-- All a decoder turn can do in any state: it waits, or consumes one byte; under R28 it then does
what `decodeStep` says. -/
theorem engineTurn_dec_consumes {s t : State} (h : engineTurn .dec s = .next t) :
    (¬ DecReady s ∧ t = s)
      ∨ ∃ b bs u out, DecReady s ∧ s.dec.input = b :: bs ∧ t = decAfter u out s
          ∧ (UnitInv s.dec.unit s.dec.rem →
              (u, out) = decodeStep s.cfg.decValidate s.dec.unit s.dec.rem b) := by
  by_cases hu : UnitInv s.dec.unit s.dec.rem
  · obtain hw | ⟨b, bs, r, hi, rfl⟩ := engineTurn_dec_cases hu h
    · exact .inl hw
    · exact .inr ⟨b, bs, _, _, r, hi, rfl, fun _ => rfl⟩
  · by_cases r : DecReady s
    · obtain ⟨b, bs, hi⟩ := List.exists_cons_of_ne_nil r.2.2.1
      simp only [engineTurn, fetch, fetchDec_ready r hi] at h
      obtain ⟨u, out, he⟩ := runFetch_byte_element h
      rw [decElement_ready r] at he
      cases he
      exact .inr ⟨b, bs, u, out, r, hi, rfl, fun hu' => absurd hu' hu⟩
    · rw [engineTurn_dec_waits r] at h
      cases h
      exact .inl ⟨r, rfl⟩

/-! ## What one step can do to the engines -/

/-- Engine `e` has the turn: the schedule names it, or is empty and the free turn is its own (R18). -/
def HasTurn (s : State) (e : Engine) : Prop :=
  (s.pending = [] ∧ Config.freeTurn s.turns = e) ∨ ∃ rest, s.pending = .turn e :: rest

/-- The two engines after a step from `s`, one constructor per kind of move (R18, R31, R32, R133). -/
inductive StepEffect (s : State) : Encoder → Decoder → Prop
  /-- A turn that waits, or a host read of a busy bit. -/
  | unchanged : StepEffect s s.enc s.dec
  | encElement {w : Word} {ws : List Word} (turn : HasTurn s .enc) (ready : EncReady s)
      (input : s.enc.input = w :: ws) : StepEffect s (encAfter (encodeCP w) s).enc s.dec
  | decElement {b : Byte} {bs : List Byte} {u : UnitRegs} {out : List Word} (turn : HasTurn s .dec)
      (ready : DecReady s) (input : s.dec.input = b :: bs)
      (stepped : UnitInv s.dec.unit s.dec.rem →
        (u, out) = decodeStep s.cfg.decValidate s.dec.unit s.dec.rem b) :
      StepEffect s s.enc (decAfter u out s).dec
  | encFrame {n : Nat} {rest : List Event} (scheduled : s.pending = .encCommand n :: rest)
      (idle : s.enc.active = false) (fits : n ≤ s.cfg.maxFrame) :
      StepEffect s (encFrameAfter n s).enc s.dec
  | decFrame {n : Nat} {rest : List Event} (scheduled : s.pending = .decCommand n :: rest)
      (idle : s.dec.active = false) (fits : n ≤ s.cfg.maxFrame) :
      StepEffect s s.enc (decFrameAfter n s).dec
  | pushEnc {w : Word} {rest : List Event} (scheduled : s.pending = .pushEnc w :: rest)
      (room : s.enc.input.length < s.cfg.encInDepth) :
      StepEffect s { s.enc with input := s.enc.input ++ [w] } s.dec
  | pushDec {b : Byte} {rest : List Event} (scheduled : s.pending = .pushDec b :: rest)
      (room : s.dec.input.length < s.cfg.decInDepth) :
      StepEffect s s.enc { s.dec with input := s.dec.input ++ [b] }
  | popEnc {b : Byte} {bs : List Byte} {rest : List Event} (scheduled : s.pending = .popEnc :: rest)
      (output : s.enc.output = b :: bs) : StepEffect s { s.enc with output := bs } s.dec
  | popDec {w : Word} {ws : List Word} {rest : List Event} (scheduled : s.pending = .popDec :: rest)
      (output : s.dec.output = w :: ws) : StepEffect s s.enc { s.dec with output := ws }
  | reset {rest : List Event} (scheduled : s.pending = .hardwareReset :: rest) :
      StepEffect s Encoder.reset Decoder.reset

/-- An engine's turn has a step's effect; the schedule and the free-turn counter have moved on. -/
theorem engineTurn_effect {s t : State} {e : Engine} {p : List Event} {k : Nat} (turn : HasTurn s e)
    (h : engineTurn e { s with pending := p, turns := k } = .next t) :
    t.cfg = s.cfg ∧ StepEffect s t.enc t.dec := by
  cases e with
  | enc =>
    obtain ⟨-, rfl⟩ | ⟨w, ws, r, hi, rfl⟩ := engineTurn_enc_cases h
    · exact ⟨rfl, .unchanged⟩
    · exact ⟨rfl, .encElement turn r hi⟩
  | dec =>
    obtain ⟨-, rfl⟩ | ⟨b, bs, u, out, r, hi, rfl, hs⟩ := engineTurn_dec_consumes h
    · exact ⟨rfl, .unchanged⟩
    · exact ⟨rfl, .decElement turn r hi hs⟩

/-- A scheduled move has a step's effect. -/
theorem runEvent_effect {s t : State} {ev : Event} {rest : List Event}
    (hp : s.pending = ev :: rest) (h : runEvent ev (s.withPending rest) = .next t) :
    t.cfg = s.cfg ∧ StepEffect s t.enc t.dec := by
  cases ev with
  | turn e => exact engineTurn_effect (.inr ⟨rest, hp⟩) h
  | encCommand n =>
    obtain ⟨hb, hn, rfl⟩ := startFrame_cases (e := .enc) h
    exact ⟨rfl, .encFrame hp hb hn⟩
  | decCommand n =>
    obtain ⟨hb, hn, rfl⟩ := startFrame_cases (e := .dec) h
    exact ⟨rfl, .decFrame hp hb hn⟩
  | pushEnc w =>
    obtain ⟨room, rfl⟩ := pushEnc_cases h
    exact ⟨rfl, .pushEnc hp room⟩
  | pushDec b =>
    obtain ⟨room, rfl⟩ := pushDec_cases h
    exact ⟨rfl, .pushDec hp room⟩
  | popEnc =>
    obtain ⟨b, bs, ho, rfl⟩ := popEnc_cases h
    exact ⟨rfl, .popEnc hp ho⟩
  | popDec =>
    obtain ⟨w, ws, ho, rfl⟩ := popDec_cases h
    exact ⟨rfl, .popDec hp ho⟩
  | readEncBusy | readDecBusy => cases h; exact ⟨rfl, .unchanged⟩
  | hardwareReset => cases h; exact ⟨rfl, .reset hp⟩

/-- All a step can do to the parameters and the engines. -/
theorem step_effect {s t : State} (h : step s = .next t) :
    t.cfg = s.cfg ∧ StepEffect s t.enc t.dec := by
  cases hp : s.pending with
  | nil =>
    rw [step_unscheduled hp] at h
    exact engineTurn_effect (.inl ⟨hp, rfl⟩) h
  | cons ev rest =>
    rw [step_scheduled hp] at h
    exact runEvent_effect hp h

/-! ## The invariant, one part per engine -/

/-- The encoder's part of `State.Inv`. -/
structure EncInv (c : Config) (e : Encoder) : Prop where
  cursor : CursorInv e.active e.rem c.maxFrame
  input : e.input.length ≤ c.encInDepth
  output : e.output.length ≤ c.encOutDepth

/-- The decoder's part of `State.Inv`. -/
structure DecInv (c : Config) (d : Decoder) : Prop where
  cursor : CursorInv d.active d.rem c.maxFrame
  unit : UnitInv d.unit d.rem
  input : d.input.length ≤ c.decInDepth
  output : d.output.length ≤ c.decOutDepth
  words : ∀ w ∈ d.output, w.toNat < 2 ^ 21

/-- The invariant speaks of the parameters, the encoder and the decoder apart. -/
theorem inv_iff (s : State) :
    s.Inv ↔ s.cfg.Valid ∧ EncInv s.cfg s.enc ∧ DecInv s.cfg s.dec := by
  constructor
  · rintro ⟨hc, he, hd, hu, hei, heo, hdi, hdo, hw⟩
    exact ⟨hc, ⟨he, hei, heo⟩, ⟨hd, hu, hdi, hdo, by simpa using hw⟩⟩
  · rintro ⟨hc, ⟨he, hei, heo⟩, ⟨hd, hu, hdi, hdo, hw⟩⟩
    exact ⟨hc, he, hd, hu, hei, heo, hdi, hdo, by simpa using hw⟩

/-- A cursor of `n` with its busy bit is legal (R21). -/
theorem cursorInv_frameOpen {n maxFrame : Nat} (h : n ≤ maxFrame) :
    CursorInv (frameOpen n) n maxFrame :=
  ⟨frameOpen_eq_true n, h⟩

/-- An idle engine's cursor is legal. -/
theorem cursorInv_reset (maxFrame : Nat) : CursorInv false 0 maxFrame :=
  ⟨by simp, Nat.zero_le _⟩

/-- A word is encoded in at most four bytes. -/
theorem length_encodeCP_le (w : Word) : (encodeCP w).length ≤ 4 := by
  unfold encodeCP
  split_ifs <;> simp [replBytes]

/-- An encoder element step keeps the encoder's part; R44's room of four bytes takes any encoding. -/
theorem EncInv.element {s : State} (hi : EncInv s.cfg s.enc) (ready : EncReady s) (w : Word) :
    EncInv s.cfg (encAfter (encodeCP w) s).enc where
  cursor := cursorInv_frameOpen ((Nat.sub_le _ 1).trans hi.cursor.2)
  input := (List.tail_sublist _).length_le.trans hi.input
  output := by
    have room := ready.2.2.2
    have four := length_encodeCP_le w
    simp only [encAfter, State.withEnc_enc, List.length_append]
    omega

/-- The encoder after reset meets its part under any parameters. -/
theorem EncInv.reset (c : Config) : EncInv c Encoder.reset :=
  ⟨cursorInv_reset _, Nat.zero_le _, Nat.zero_le _⟩

/-! ## The decoder's element step under the invariant -/

/-- What a decoder step may leave: legal unit registers for the `rem` bytes still to come, and at most
one word, of at most 21 bits (R27 to R29, R41). -/
def StepInv (rem : Nat) (r : UnitRegs × List Word) : Prop :=
  UnitInv r.1 rem ∧ r.2.length ≤ 1 ∧ ∀ w ∈ r.2, w.toNat < 2 ^ 21

/-- Clear unit registers are legal outside `CONT` (R27). -/
theorem unitInv_clear {m : Mode} {rem : Nat} (hm : m ≠ .cont) (hr : m = .drain → rem ≤ 2) :
    UnitInv (UnitRegs.clear m) rem :=
  ⟨fun _ => ⟨rfl, rfl, rfl⟩, fun h => absurd h hm, hr⟩

/-- The marker fits in 21 bits. -/
theorem toNat_replCp_lt : replCp.toNat < 2 ^ 21 := by decide

/-- A step that clears the unit registers to `START` and emits a 21-bit word. -/
theorem stepInv_start {w : Word} (rem : Nat) (hw : w.toNat < 2 ^ 21) :
    StepInv rem (UnitRegs.clear .start, [w]) :=
  ⟨unitInv_clear (by decide) (by simp), le_rfl, List.forall_mem_singleton.mpr hw⟩

/-- A truncated lead leaves at most two bytes to drain (R87, R89, R91). -/
theorem stepInv_drain {rem : Nat} (hr : rem ≤ 2) : StepInv rem (UnitRegs.clear .drain, [replCp]) :=
  ⟨unitInv_clear (by decide) (fun _ => hr), le_rfl,
    List.forall_mem_singleton.mpr toNat_replCp_lt⟩

/-- Legal counters and a bounded accumulator make a legal open unit (R28). -/
theorem stepInv_cont {u : UnitRegs} {rem : Nat} (hm : u.mode = .cont)
    (counts : (u.exp.toNat, u.bits.toNat) ∈ openCounts) (acc : u.acc.toNat < 2 ^ u.bits.toNat)
    (left : (u.exp.toNat - u.bits.toNat) / 6 ≤ rem) : StepInv rem (u, []) :=
  ⟨⟨fun h => absurd hm h, fun _ => ⟨counts, acc, left⟩, by simp [hm]⟩, by simp, by simp⟩

/-- A mask below `2 ^ k` leaves a byte below `2 ^ k`. -/
theorem toNat_maskedByte_lt (b m : Byte) {k : Nat} (hm : m.toNat < 2 ^ k) :
    ((b &&& m).setWidth 32 : Word).toNat < 2 ^ k := by
  have hle : b.toNat &&& m.toNat ≤ m.toNat := Nat.and_le_right
  have hb := (b &&& m).isLt
  rw [BitVec.toNat_setWidth, Nat.mod_eq_of_lt (by omega), BitVec.toNat_and]
  omega

/-- A lead whose unit fits in the frame opens it (R86, R88, R90). -/
theorem stepInv_lead (b : Byte) {m : Byte} {bits exp : Count5} {rem : Nat}
    (counts : (exp.toNat, bits.toNat) ∈ openCounts) (mask : m.toNat < 2 ^ bits.toNat)
    (left : (exp.toNat - bits.toNat) / 6 ≤ rem) :
    StepInv rem (⟨.cont, (b &&& m).setWidth 32, bits, exp⟩, []) :=
  stepInv_cont rfl counts (toNat_maskedByte_lt b m mask) left

/-- A continuation byte adds six bits to the accumulator (R94). -/
theorem toNat_accumulated_lt {acc : Word} {k : Nat} (b : Byte) (h : acc.toNat < 2 ^ k) :
    ((acc <<< 6) ||| (b &&& 0x3F#8).setWidth 32 : Word).toNat < 2 ^ (k + 6) := by
  have low := toNat_maskedByte_lt b 0x3F#8 (k := 6) (by decide)
  rw [BitVec.toNat_or]
  apply Nat.or_lt_two_pow
  · rw [BitVec.toNat_shiftLeft, Nat.shiftLeft_eq, pow_add]
    exact (Nat.mod_le _ _).trans_lt (by omega)
  · exact low.trans_le (Nat.pow_le_pow_right (by decide) (by omega))

/-- A completed unit emits its value or the marker, so at most 21 bits (R41). -/
theorem toNat_completedWord_lt {v : Word} (validate : Bool) (exp : Count5) (h : v.toNat < 2 ^ 21) :
    (completedWord validate exp v).toNat < 2 ^ 21 := by
  unfold completedWord
  exact iteInduction (motive := fun w : Word => w.toNat < 2 ^ 21) (fun _ => toNat_replCp_lt)
    (fun _ => h)

/-- A byte in `START` (R85 to R93). -/
theorem decodeStep_start_inv {u : UnitRegs} {rem : Nat} (validate : Bool) (b : Byte)
    (hu : UnitInv u rem) (hm : u.mode = .start) :
    StepInv (rem - 1) (decodeStep validate u rem b) := by
  simp only [decodeStep, hm]
  split_ifs
  · refine ⟨⟨hu.1, by simp [hm], by simp [hm]⟩, le_rfl, List.forall_mem_singleton.mpr ?_⟩
    have byte := b.isLt
    rw [BitVec.toNat_setWidth]
    omega
  · exact stepInv_lead b (by decide) (by decide) (by simp; omega)
  · exact stepInv_drain (by omega)
  · exact stepInv_lead b (by decide) (by decide) (by simp; omega)
  · exact stepInv_drain (by omega)
  · exact stepInv_lead b (by decide) (by decide) (by simp; omega)
  · exact stepInv_drain (by omega)
  · exact stepInv_start _ toNat_replCp_lt

/-- While an open unit misses bytes beyond the next one, six more bits keep its counters legal
and inside the five bits of `D.bits` (R25, R28). -/
theorem openCounts_next {exp bits : Nat} (h : (exp, bits) ∈ openCounts) (hlt : bits + 6 < exp) :
    (exp, bits + 6) ∈ openCounts ∧ bits + 6 < 32 := by
  simp [openCounts] at h ⊢
  omega

/-- An expected total is at most 21 bits (R26). -/
theorem total_le_of_openCounts {exp bits : Nat} (h : (exp, bits) ∈ openCounts) : exp ≤ 21 := by
  simp [openCounts] at h
  omega

/-- A byte inside a unit (R94 to R96). -/
theorem decodeStep_cont_inv {u : UnitRegs} {rem : Nat} (validate : Bool) (b : Byte)
    (hu : UnitInv u rem) (hm : u.mode = .cont) :
    StepInv (rem - 1) (decodeStep validate u rem b) := by
  obtain ⟨counts, acc, left⟩ := hu.2.1 hm
  have accumulated := toNat_accumulated_lt b acc
  simp only [decodeStep, hm]
  split_ifs with isCont more
  · obtain ⟨counts', small⟩ := openCounts_next counts more
    have bits' : (u.bits + 6#5).toNat = u.bits.toNat + 6 := by
      simpa using Nat.mod_eq_of_lt small
    refine stepInv_cont rfl ?_ ?_ ?_
    · simpa only [bits'] using counts'
    · simpa only [bits'] using accumulated
    · simp only [bits']
      omega
  · have last : u.bits.toNat + 6 ≤ 21 := by
      have := hu.counter hm
      have := total_le_of_openCounts counts
      omega
    exact stepInv_start _ (toNat_completedWord_lt _ _
      (accumulated.trans_le (Nat.pow_le_pow_right (by decide) last)))
  · exact stepInv_start _ toNat_replCp_lt

/-- A drained byte (R97). -/
theorem decodeStep_drain_inv {u : UnitRegs} {rem : Nat} (validate : Bool) (b : Byte)
    (hu : UnitInv u rem) (hm : u.mode = .drain) :
    StepInv (rem - 1) (decodeStep validate u rem b) := by
  simp only [decodeStep, hm]
  have := hu.2.2 hm
  exact ⟨⟨hu.1, by simp [hm], by omega⟩, by simp, by simp⟩

/-- Every byte, in every mode, leaves legal unit registers and at most one 21-bit word. -/
theorem decodeStep_inv {u : UnitRegs} {rem : Nat} (validate : Bool) (b : Byte) (hu : UnitInv u rem) :
    StepInv (rem - 1) (decodeStep validate u rem b) := by
  cases hm : u.mode with
  | start => exact decodeStep_start_inv validate b hu hm
  | cont => exact decodeStep_cont_inv validate b hu hm
  | drain => exact decodeStep_drain_inv validate b hu hm

/-- The decoder after reset meets its part under any parameters. -/
theorem DecInv.reset (c : Config) : DecInv c Decoder.reset :=
  ⟨cursorInv_reset _, unitInv_clear (by decide) (by simp), Nat.zero_le _, Nat.zero_le _,
    List.forall_mem_nil _⟩

/-- An enabled decoder element step with a legal outcome keeps the decoder's part. -/
theorem DecInv.element {s : State} {u : UnitRegs} {out : List Word} (hi : DecInv s.cfg s.dec)
    (ready : DecReady s) (hs : StepInv (s.dec.rem - 1) (u, out)) :
    DecInv s.cfg (decAfter u out s).dec := by
  obtain ⟨unit, one, small⟩ := hs
  refine ⟨cursorInv_frameOpen ((Nat.sub_le _ 1).trans hi.cursor.2), unit,
    (List.tail_sublist _).length_le.trans hi.input, ?_, ?_⟩
  · have room := ready.2.2.2
    simp only [decAfter, State.withDec_dec, List.length_append]
    simp only at one
    omega
  · intro w hw
    obtain old | new := List.mem_append.mp hw
    · exact hi.words w old
    · exact small w new

/-! ## The frame cursors -/

/-- All that may happen to a cursor, with the busy bit `active` it ends with: it stays, takes one,
is set by the engine's own frame command, or is cleared by hardware reset (R21). -/
def CursorMoves (command : Nat → Event) (pending : List Event) (rem rem' : Nat) (active : Bool) :
    Prop :=
  rem' = rem
  ∨ (1 ≤ rem ∧ rem' + 1 = rem ∧ active = (rem' != 0))
  ∨ (∃ n rest, pending = command n :: rest ∧ rem' = n ∧ active = (n != 0))
  ∨ ∃ rest, pending = .hardwareReset :: rest ∧ rem' = 0

/-- An element step, enabled only with a cursor of at least 1, takes one from it (R21). -/
theorem cursorMoves_by_one {command : Nat → Event} {pending : List Event} {n : Nat} (h : 1 ≤ n) :
    CursorMoves command pending n (n - 1) (frameOpen (n - 1)) :=
  .inr (.inl ⟨h, Nat.sub_add_cancel h, rfl⟩)

theorem step_moves_encCursor {s t : State} (h : step s = .next t) :
    CursorMoves .encCommand s.pending s.enc.rem t.enc.rem t.enc.active := by
  obtain ⟨-, effect⟩ := step_effect h
  generalize t.enc = e, t.dec = d at effect ⊢
  cases effect with
  | encElement turn ready input => exact cursorMoves_by_one ready.2.1
  | encFrame scheduled idle fits => exact .inr (.inr (.inl ⟨_, _, scheduled, rfl, rfl⟩))
  | reset scheduled => exact .inr (.inr (.inr ⟨_, scheduled, rfl⟩))
  | unchanged | decElement _ _ _ _ | decFrame _ _ _ | pushEnc _ _ | pushDec _ _ | popEnc _ _
  | popDec _ _ => exact .inl rfl

theorem step_moves_decCursor {s t : State} (h : step s = .next t) :
    CursorMoves .decCommand s.pending s.dec.rem t.dec.rem t.dec.active := by
  obtain ⟨-, effect⟩ := step_effect h
  generalize t.enc = e, t.dec = d at effect ⊢
  cases effect with
  | decElement turn ready input stepped => exact cursorMoves_by_one ready.2.1
  | decFrame scheduled idle fits => exact .inr (.inr (.inl ⟨_, _, scheduled, rfl, rfl⟩))
  | reset scheduled => exact .inr (.inr (.inr ⟨_, scheduled, rfl⟩))
  | unchanged | encElement _ _ _ | encFrame _ _ _ | pushEnc _ _ | pushDec _ _ | popEnc _ _
  | popDec _ _ => exact .inl rfl

/-- A scheduled encoder turn whose step is enabled takes one from the cursor (R21, R73). -/
theorem step_encTurn_takes_one {s : State} {rest : List Event} (ready : EncReady s)
    (hp : s.pending = .turn .enc :: rest) : ∃ t, step s = .next t ∧ t.enc.rem + 1 = s.enc.rem := by
  obtain ⟨w, ws, hi⟩ := List.exists_cons_of_ne_nil ready.2.2.1
  rw [step_scheduled hp]
  exact ⟨_, engineTurn_enc_ready (s := s.withPending rest) ready hi, Nat.sub_add_cancel ready.2.1⟩

/-- A scheduled decoder turn whose step is enabled takes one from the cursor (R21, R83). -/
theorem step_decTurn_takes_one {s : State} {rest : List Event} (hu : UnitInv s.dec.unit s.dec.rem)
    (ready : DecReady s) (hp : s.pending = .turn .dec :: rest) :
    ∃ t, step s = .next t ∧ t.dec.rem + 1 = s.dec.rem := by
  obtain ⟨b, bs, hi⟩ := List.exists_cons_of_ne_nil ready.2.2.1
  rw [step_scheduled hp]
  exact ⟨_, engineTurn_dec_ready (s := s.withPending rest) hu ready hi, Nat.sub_add_cancel ready.2.1⟩

/-- An accepted encoder command sets the cursor to its count (R82). -/
theorem step_encCommand_sets {s : State} {rest : List Event} {n : Nat} (idle : s.enc.active = false)
    (fits : n ≤ s.cfg.maxFrame) (hp : s.pending = .encCommand n :: rest) :
    ∃ t, step s = .next t ∧ t.enc.rem = n := by
  rw [step_scheduled hp]
  exact ⟨_, startFrame_accepts (e := .enc) (s := s.withPending rest) idle fits, rfl⟩

/-- An accepted decoder command sets the cursor to its count (R98). -/
theorem step_decCommand_sets {s : State} {rest : List Event} {n : Nat} (idle : s.dec.active = false)
    (fits : n ≤ s.cfg.maxFrame) (hp : s.pending = .decCommand n :: rest) :
    ∃ t, step s = .next t ∧ t.dec.rem = n := by
  rw [step_scheduled hp]
  exact ⟨_, startFrame_accepts (e := .dec) (s := s.withPending rest) idle fits, rfl⟩

/-! ## The obligations -/

/-- Settles O1: every register and channel of `State.reset` reads as R35's table has it. -/
theorem resetClearsEveryRegisterAndChannel : Obligations.ResetClearsEveryRegisterAndChannel := by
  simp [Obligations.ResetClearsEveryRegisterAndChannel, State.reset, Encoder.reset, Decoder.reset,
    Mode.code]

/-- Settles O4: `State.Inv` splits by engine (`inv_iff`), and each move of `StepEffect` keeps the part
of the engine it touches. -/
theorem everyStepKeepsTheInvariant : Obligations.EveryStepKeepsTheInvariant := by
  intro s t hs h
  obtain ⟨hc, he, hd⟩ := (inv_iff s).mp hs
  obtain ⟨hcfg, effect⟩ := step_effect h
  rw [inv_iff, hcfg]
  refine ⟨hc, ?_⟩
  generalize t.enc = e, t.dec = d at effect ⊢
  cases effect with
  | unchanged => exact ⟨he, hd⟩
  | encElement turn ready input => exact ⟨he.element ready _, hd⟩
  | decElement turn ready input stepped =>
    exact ⟨he, hd.element ready (stepped hd.unit ▸ decodeStep_inv _ _ hd.unit)⟩
  | encFrame scheduled idle fits => exact ⟨{ he with cursor := cursorInv_frameOpen fits }, hd⟩
  | decFrame scheduled idle fits =>
    exact ⟨he, { hd with
      cursor := cursorInv_frameOpen fits
      unit := unitInv_clear (by decide) (by simp) }⟩
  | pushEnc scheduled room => exact ⟨{ he with input := by simpa using room }, hd⟩
  | pushDec scheduled room => exact ⟨he, { hd with input := by simpa using room }⟩
  | popEnc scheduled output =>
    have := he.output
    rw [output] at this
    exact ⟨{ he with output := Nat.le_of_succ_le this }, hd⟩
  | popDec scheduled output =>
    have bound := hd.output
    have words := hd.words
    rw [output] at bound words
    exact ⟨he, { hd with
      output := Nat.le_of_succ_le bound
      words := fun w hw => words w (List.mem_cons_of_mem _ hw) }⟩
  | reset scheduled => exact ⟨.reset _, .reset _⟩

/-- Settles O52, from all a step can do to each cursor and from what an enabled turn and an accepted
command do. -/
theorem frameCursorMovesByOneElement : Obligations.FrameCursorMovesByOneElement :=
  ⟨fun _ _ => step_moves_encCursor,
    fun _ _ => step_encTurn_takes_one,
    fun _ _ => step_decTurn_takes_one,
    fun _ _ _ => step_encCommand_sets,
    fun _ _ _ => step_decCommand_sets,
    fun _ _ => step_moves_decCursor⟩

end Sys2Proof.Machine
end

section
/-! PROOFS. The family 20_memory.md: the two engines share nothing but the parameters, and each
engine's output keeps the order of its input. -/

namespace Sys2Proof.Machine

/-! ## A turn reads and writes its own engine alone -/

/-- The answer at `x` of a decoder step that answers `a` elsewhere: the decoder of `a`, or its stop. -/
def State.takeDecoder (x : State) : Answer → Answer
  | .next t => .next (x.withDec t.dec)
  | .fault r => .fault r
  | .refused r => .refused r

/-- A decoder element step reads the parameters and the decoder alone. -/
theorem decElement_congr (u : UnitRegs) (out : List Word) {s x : State} (hc : x.cfg = s.cfg)
    (hd : x.dec = s.dec) : decElement u out x = x.takeDecoder (decElement u out s) := by
  obtain ⟨_, e, _, h, p, k⟩ := x
  subst hc hd
  by_cases ready : DecReady s
  · rw [decElement_ready ready, decElement_ready (s := ⟨s.cfg, e, s.dec, h, p, k⟩) ready]
    rfl
  · rw [decElement_waits ready, decElement_waits (s := ⟨s.cfg, e, s.dec, h, p, k⟩) ready]
    rfl

/-- The emission of a completed value reads the parameters and the decoder alone. -/
theorem emitValidated_congr (v : Word) {s x : State} (hc : x.cfg = s.cfg) (hd : x.dec = s.dec) :
    emitValidated v x = x.takeDecoder (emitValidated v s) := by
  unfold emitValidated
  rw [hd]
  split
  · rfl
  · split <;> exact decElement_congr _ _ hc hd

/-- DEC_CONT_LAST reads the parameters and the decoder alone. -/
theorem execDecContLast_congr (p : BitVec 6) {s x : State} (hc : x.cfg = s.cfg)
    (hd : x.dec = s.dec) : execDecContLast p x = x.takeDecoder (execDecContLast p s) := by
  unfold execDecContLast
  rw [hc, hd]
  split
  · exact emitValidated_congr _ hc hd
  · exact decElement_congr _ _ hc hd

/-- A decoder operation reads the parameters and the decoder alone. -/
theorem exec_decoder_congr {i : Instr} (hf : familyOf i = .decoder) {s x : State}
    (hc : x.cfg = s.cfg) (hd : x.dec = s.dec) : exec i x = x.takeDecoder (exec i s) := by
  obtain ⟨_, e, _, h, p, k⟩ := x
  subst hc hd
  cases i with
  | enc1B _ | enc2B _ _ | encSur _ | enc3B _ _ _ | enc4B _ _ _ _ | encOvr _ | encFrame _
  | decFrame _ => cases hf
  | decContLast p => exact execDecContLast_congr p rfl rfl
  | decAscii _ | decLead2 _ | decLead2Trunc _ | decLead3 _ | decLead3Trunc _ | decLead4 _
  | decLead4Trunc _ | decStray _ | decBadlead _ | decCont _ | decBadcont _ | decDrain _ =>
    exact decElement_congr _ _ rfl rfl

/-- Running the operation a byte selects reads the parameters and the decoder alone. -/
theorem runFetch_byte_congr (mode : Mode) (rem : Nat) (bits exp : Count5) (b : Byte) {s x : State}
    (hc : x.cfg = s.cfg) (hd : x.dec = s.dec) :
    runFetch (.byte mode rem bits exp b) x
      = x.takeDecoder (runFetch (.byte mode rem bits exp b) s) := by
  unfold runFetch
  split
  · next selected => exact exec_decoder_congr (familyOf_of_decode_byte selected) hc hd
  · rfl

/-- A decoder turn reads the parameters and the decoder alone, in any state (R48). -/
theorem engineTurn_dec_congr {s x : State} (hc : x.cfg = s.cfg) (hd : x.dec = s.dec) :
    engineTurn .dec x = x.takeDecoder (engineTurn .dec s) := by
  have hr : DecReady x ↔ DecReady s := by simp only [DecReady, hc, hd]
  by_cases ready : DecReady s
  · obtain ⟨b, bs, hi⟩ := List.exists_cons_of_ne_nil ready.2.2.1
    simp only [engineTurn, fetch, fetchDec_ready ready hi, hd,
      fetchDec_ready (hr.mpr ready) (hd ▸ hi : x.dec.input = b :: bs)]
    exact runFetch_byte_congr _ _ _ _ _ hc hd
  · rw [engineTurn_dec_waits ready, engineTurn_dec_waits (mt hr.mp ready)]
    simp only [State.takeDecoder, ← hd, State.withDec_self]

/-- In all states with the parameters and the decoder of `s`, a decoder turn leaves the same decoder
and changes nothing else, or is refused for the same reason. -/
theorem engineTurn_dec_local (s : State) :
    (∃ d, ∀ x : State, x.cfg = s.cfg → x.dec = s.dec → engineTurn .dec x = .next (x.withDec d))
      ∨ ∃ r, ∀ x : State, x.cfg = s.cfg → x.dec = s.dec → engineTurn .dec x = .refused r := by
  cases h : engineTurn .dec s with
  | next t => exact .inl ⟨t.dec, fun x hc hd => by rw [engineTurn_dec_congr hc hd, h]; rfl⟩
  | refused r => exact .inr ⟨r, fun x hc hd => by rw [engineTurn_dec_congr hc hd, h]; rfl⟩
  | fault r => cases r

/-- In all states with the parameters and the encoder of `s`, an encoder turn leaves the same encoder
and changes nothing else. -/
theorem engineTurn_enc_local (s : State) :
    ∃ e, ∀ x : State, x.cfg = s.cfg → x.enc = s.enc → engineTurn .enc x = .next (x.withEnc e) := by
  by_cases ready : EncReady s
  · obtain ⟨w, ws, hi⟩ := List.exists_cons_of_ne_nil ready.2.2.1
    refine ⟨(encAfter (encodeCP w) s).enc, fun x hc he => ?_⟩
    have readyx : EncReady x := by simpa only [EncReady, hc, he] using ready
    rw [engineTurn_enc_ready readyx (he ▸ hi), encAfter, he]
    rfl
  · refine ⟨s.enc, fun x hc he => ?_⟩
    have waitsx : ¬ EncReady x := by simpa only [EncReady, hc, he] using ready
    rw [engineTurn_enc_waits waitsx, ← he, State.withEnc_self]

/-- A run whose first move is a turn that answers a next state goes on from there. -/
theorem runSteps_turn_next {k : Nat} {e : Engine} {rest : List Event} {x t : State}
    (hp : x.pending = .turn e :: rest) (h : engineTurn e (x.withPending rest) = .next t) :
    runSteps (k + 1) x = runSteps k t := by
  simp only [runSteps, step_scheduled hp, runEvent, h]

/-- A run whose first move is a refused turn is refused. -/
theorem runSteps_turn_refused {k : Nat} {e : Engine} {rest : List Event} {x : State} {r : Refusal}
    (hp : x.pending = .turn e :: rest) (h : engineTurn e (x.withPending rest) = .refused r) :
    runSteps (k + 1) x = .refused r := by
  simp only [runSteps, step_scheduled hp, runEvent, h]

/-- A turn of each engine gives the same answer in either order, a refusal included. -/
theorem engineTurns_commute (s : State) (rest : List Event) :
    runSteps 2 { s with pending := .turn .enc :: .turn .dec :: rest }
      = runSteps 2 { s with pending := .turn .dec :: .turn .enc :: rest } := by
  obtain ⟨e, he⟩ := engineTurn_enc_local s
  obtain ⟨d, hd⟩ | ⟨r, hd⟩ := engineTurn_dec_local s
  · calc runSteps 2 { s with pending := .turn .enc :: .turn .dec :: rest }
      _ = runSteps 1 ((s.withPending (.turn .dec :: rest)).withEnc e) :=
        runSteps_turn_next rfl (he _ rfl rfl)
      _ = .next (((s.withPending rest).withEnc e).withDec d) :=
        runSteps_turn_next rfl (hd _ rfl rfl)
      _ = runSteps 1 ((s.withPending (.turn .enc :: rest)).withDec d) :=
        .symm (runSteps_turn_next rfl (he _ rfl rfl))
      _ = runSteps 2 { s with pending := .turn .dec :: .turn .enc :: rest } :=
        .symm (runSteps_turn_next rfl (hd _ rfl rfl))
  · calc runSteps 2 { s with pending := .turn .enc :: .turn .dec :: rest }
      _ = runSteps 1 ((s.withPending (.turn .dec :: rest)).withEnc e) :=
        runSteps_turn_next rfl (he _ rfl rfl)
      _ = .refused r := runSteps_turn_refused rfl (hd _ rfl rfl)
      _ = runSteps 2 { s with pending := .turn .dec :: .turn .enc :: rest } :=
        .symm (runSteps_turn_refused rfl (hd _ rfl rfl))

/-! ## Each engine's output in the order of its input -/

/-- From `s` to `t`, with `pushed` put into `ENC_IN`, the encoder takes at most one word from the head
of its input and emits exactly `Encode` of it (R46). -/
def EncInOrder (pushed : List Word) (s t : State) : Prop :=
  ∃ ws : List Word, ws.length ≤ 1 ∧ s.enc.input ++ pushed = ws ++ t.enc.input
    ∧ t.encProduced = s.encProduced ++ encodeFrame ws

/-- From `s` to `t`, with `pushed` put into `DEC_IN`, the decoder takes nothing and emits nothing, or
takes the head of its input and emits what `decodeStep` says (R46). -/
def DecInOrder (pushed : List Byte) (s t : State) : Prop :=
  (s.dec.input ++ pushed = t.dec.input ∧ t.decProduced = s.decProduced)
  ∨ ∃ b : Byte, s.dec.input ++ pushed = b :: t.dec.input
    ∧ t.decProduced = s.decProduced ++ (decodeStep s.cfg.decValidate s.dec.unit s.dec.rem b).2

/-- An encoder that takes no word emits nothing. -/
theorem EncInOrder.of_takes_none {pushed : List Word} {s t : State}
    (input : s.enc.input ++ pushed = t.enc.input) (produced : t.encProduced = s.encProduced) :
    EncInOrder pushed s t :=
  ⟨[], Nat.zero_le _, input, by rw [produced, encodeFrame, List.append_nil]⟩

/-- What leaves the encoder and the host's view keeps the encoder's order. -/
theorem EncInOrder.of_same {s t : State} (enc : t.enc = s.enc) (host : t.host = s.host) :
    EncInOrder [] s t :=
  .of_takes_none (by rw [enc, List.append_nil]) (by rw [State.encProduced, enc, host]; rfl)

/-- What leaves the decoder and the host's view keeps the decoder's order. -/
theorem DecInOrder.of_same {s t : State} (dec : t.dec = s.dec) (host : t.host = s.host) :
    DecInOrder [] s t :=
  .inl ⟨by rw [dec, List.append_nil], by rw [State.decProduced, dec, host]; rfl⟩

/-- An encoder element step emits the encoding of the word it takes. -/
theorem encAfter_inOrder {s : State} {w : Word} {ws : List Word} (hi : s.enc.input = w :: ws) :
    EncInOrder [] s (encAfter (encodeCP w) s) :=
  ⟨[w], le_rfl, by simp [encAfter, hi], by simp [encAfter, State.encProduced, encodeFrame]⟩

/-- A decoder element step emits what `decodeStep` says of the byte it takes. -/
theorem decAfter_inOrder {s : State} {b : Byte} {bs : List Byte} {u : UnitRegs} {out : List Word}
    (hi : s.dec.input = b :: bs)
    (stepped : (u, out) = decodeStep s.cfg.decValidate s.dec.unit s.dec.rem b) :
    DecInOrder [] s (decAfter u out s) :=
  .inr ⟨b, by simp [decAfter, hi], by simp [decAfter, State.decProduced, ← stepped]⟩

/-- A turn of either engine keeps both engines' order; the decoder's under R28. -/
theorem engineTurn_inOrder {e : Engine} {s t : State} (h : engineTurn e s = .next t) :
    EncInOrder [] s t ∧ (UnitInv s.dec.unit s.dec.rem → DecInOrder [] s t) := by
  cases e with
  | enc =>
    obtain ⟨-, rfl⟩ | ⟨w, ws, -, hi, rfl⟩ := engineTurn_enc_cases h
    · exact ⟨.of_same rfl rfl, fun _ => .of_same rfl rfl⟩
    · exact ⟨encAfter_inOrder hi, fun _ => .of_same rfl rfl⟩
  | dec =>
    obtain ⟨-, rfl⟩ | ⟨b, bs, u, out, -, hi, rfl, stepped⟩ := engineTurn_dec_consumes h
    · exact ⟨.of_same rfl rfl, fun _ => .of_same rfl rfl⟩
    · exact ⟨.of_same rfl rfl, fun hu => decAfter_inOrder hi (stepped hu)⟩

/-- Every scheduled move but hardware reset keeps both engines' order. A pop moves an element from the
output channel to the host, and so leaves all that was ever emitted as it was. -/
theorem runEvent_inOrder {ev : Event} {s t : State} (hr : ev ≠ .hardwareReset)
    (h : runEvent ev s = .next t) :
    EncInOrder (pushedWords ev) s t
      ∧ (UnitInv s.dec.unit s.dec.rem → DecInOrder (pushedBytes ev) s t) := by
  cases ev with
  | turn e => exact engineTurn_inOrder h
  | encCommand n =>
    obtain ⟨-, -, rfl⟩ := startFrame_cases (e := .enc) h
    exact ⟨.of_takes_none (List.append_nil _) rfl, fun _ => .of_same rfl rfl⟩
  | decCommand n =>
    obtain ⟨-, -, rfl⟩ := startFrame_cases (e := .dec) h
    exact ⟨.of_same rfl rfl, fun _ => .inl ⟨List.append_nil _, rfl⟩⟩
  | pushEnc w =>
    obtain ⟨-, rfl⟩ := pushEnc_cases h
    exact ⟨.of_takes_none rfl rfl, fun _ => .of_same rfl rfl⟩
  | pushDec b =>
    obtain ⟨-, rfl⟩ := pushDec_cases h
    exact ⟨.of_same rfl rfl, fun _ => .inl ⟨rfl, rfl⟩⟩
  | popEnc =>
    obtain ⟨b, bs, ho, rfl⟩ := popEnc_cases h
    exact ⟨.of_takes_none (List.append_nil _) (by simp [State.encProduced, ho]),
      fun _ => .inl ⟨List.append_nil _, rfl⟩⟩
  | popDec =>
    obtain ⟨w, ws, ho, rfl⟩ := popDec_cases h
    exact ⟨.of_takes_none (List.append_nil _) rfl,
      fun _ => .inl ⟨List.append_nil _, by simp [State.decProduced, ho]⟩⟩
  | readEncBusy | readDecBusy =>
    cases h
    exact ⟨.of_takes_none (List.append_nil _) rfl, fun _ => .inl ⟨List.append_nil _, rfl⟩⟩
  | hardwareReset => exact absurd rfl hr

/-- Every step but a hardware reset keeps both engines' order; an empty schedule stands for a turn. -/
theorem step_inOrder {s t : State} {ev : Event} {rest : List Event}
    (hp : s.pending = ev :: rest ∨ (s.pending = [] ∧ ∃ e, ev = .turn e)) (hr : ev ≠ .hardwareReset)
    (h : step s = .next t) :
    EncInOrder (pushedWords ev) s t
      ∧ (UnitInv s.dec.unit s.dec.rem → DecInOrder (pushedBytes ev) s t) := by
  obtain hp | ⟨hp, e, rfl⟩ := hp
  · rw [step_scheduled hp] at h
    exact runEvent_inOrder (s := s.withPending rest) hr h
  · rw [step_unscheduled hp] at h
    exact engineTurn_inOrder (s := s.tick) h

/-! ## The obligations -/

/-- Settles O54: an engine's turn replaces its own engine alone, by one that its engine and the
parameters determine (`engineTurn_enc_local`, `engineTurn_dec_local`), so the two turns commute. -/
theorem engineTurnsAreIndependent : Obligations.EngineTurnsAreIndependent := by
  refine ⟨engineTurns_commute, fun s t h => ?_, fun s t h => ?_, fun s s' t t' he hc h h' => ?_,
    fun s s' t t' hd hc h h' => ?_⟩
  · obtain ⟨e, turn⟩ := engineTurn_enc_local s
    cases (turn s rfl rfl).symm.trans h
    exact ⟨rfl, rfl⟩
  · obtain ⟨d, turn⟩ | ⟨r, turn⟩ := engineTurn_dec_local s
    · cases (turn s rfl rfl).symm.trans h
      exact ⟨rfl, rfl⟩
    · cases (turn s rfl rfl).symm.trans h
  · obtain ⟨e, turn⟩ := engineTurn_enc_local s
    cases (turn s rfl rfl).symm.trans h
    cases (turn s' hc.symm he.symm).symm.trans h'
    rfl
  · obtain ⟨d, turn⟩ | ⟨r, turn⟩ := engineTurn_dec_local s
    · cases (turn s rfl rfl).symm.trans h
      cases (turn s' hc.symm hd.symm).symm.trans h'
      rfl
    · cases (turn s rfl rfl).symm.trans h

/-- Settles O55: every step but a hardware reset keeps both engines' order, the decoder's by the part
of the invariant that speaks of its unit registers. -/
theorem outputsFollowTheOrderOfInputs : Obligations.OutputsFollowTheOrderOfInputs := by
  refine ⟨fun _ _ _ _ hp hr h => (step_inOrder hp hr h).1, fun s _ _ _ hi hp hr h => ?_⟩
  obtain ⟨-, -, hd⟩ := (inv_iff s).mp hi
  exact (step_inOrder hp hr h).2 hd.unit

end Sys2Proof.Machine
end

section
/-! PROOFS. The family 30_encoding.md: which operation an element selects, the lengths of the encoder's
groups, the decoder's `DRAIN`, and how payload fields make up a decoded value. -/

namespace Sys2Proof.Machine

/-! ## The encoder's classes -/

/-- The value range of each encoder operation (R58); no word selects any other operation. -/
def WordRange (v : Nat) : Instr → Prop
  | .enc1B _ => v ≤ 0x7F
  | .enc2B _ _ => 0x80 ≤ v ∧ v ≤ 0x7FF
  | .encSur _ => 0xD800 ≤ v ∧ v ≤ 0xDFFF
  | .enc3B _ _ _ => (0x800 ≤ v ∧ v ≤ 0xD7FF) ∨ (0xE000 ≤ v ∧ v ≤ 0xFFFF)
  | .enc4B _ _ _ _ => 0x10000 ≤ v ∧ v ≤ 0x10FFFF
  | .encOvr _ => 0x110000 ≤ v
  | _ => False

/-- The operation a word selects is one whose range holds the word. -/
theorem wordRange_decodeWord (w : Word) : WordRange w.toNat (decodeWord w) := by
  obtain ⟨h7, h11, h16, h21⟩ := bitw_tests w
  unfold decodeWord
  simp only [h7, h11, h16, h21, isSurrogate]
  split_ifs <;> simp only [WordRange] <;> omega

/-- Settles O10: the selected operation's range holds the word (`wordRange_decodeWord`), and no two of
the ranges meet. -/
theorem encoderClassesAreValueRanges : Obligations.EncoderClassesAreValueRanges := by
  refine ⟨fun w n => (bitw_le_iff w n).trans (Nat.le_sub_one_iff_lt (by positivity)).symm,
    fun w => ?_⟩
  have range := wordRange_decodeWord w
  simp only [decode, Except.ok.injEq]
  generalize decodeWord w = i at range ⊢
  cases i with
  | enc1B _ | enc2B _ _ | encSur _ | enc3B _ _ _ | enc4B _ _ _ _ | encOvr _ =>
    simp only [WordRange] at range
    simp
    omega
  | encFrame _ | decAscii _ | decLead2 _ | decLead2Trunc _ | decLead3 _ | decLead3Trunc _
  | decLead4 _ | decLead4Trunc _ | decStray _ | decBadlead _ | decCont _ | decContLast _
  | decBadcont _ | decDrain _ | decFrame _ => exact range.elim

/-! ## The lengths of the encoder's groups -/

/-- Every word selects an operation of the encoder family. -/
theorem familyOf_decodeWord (w : Word) : familyOf (decodeWord w) = .encoder := by
  unfold decodeWord
  split_ifs <;> rfl

/-- A group's length by the word's value (R63). -/
theorem length_encodeCP (w : Word) : (encodeCP w).length
    = if w.toNat ≤ 0x7F then 1 else if w.toNat ≤ 0x7FF then 2 else if w.toNat ≤ 0xFFFF then 3
      else if w.toNat ≤ 0x10FFFF then 4 else 3 := by
  obtain ⟨h7, h11, h16, h21⟩ := bitw_tests w
  unfold encodeCP
  simp only [h7, h11, h16, h21]
  split_ifs <;> simp [replBytes] <;> omega

/-- A group has at least one byte. -/
theorem one_le_length_encodeCP (w : Word) : 1 ≤ (encodeCP w).length := by
  rw [length_encodeCP]
  split_ifs <;> decide

/-- A frame's output has between one and four bytes for each word (R81). -/
theorem length_encodeFrame_bounds (ws : List Word) :
    ws.length ≤ (encodeFrame ws).length ∧ (encodeFrame ws).length ≤ 4 * ws.length := by
  induction ws with
  | nil => exact ⟨le_rfl, le_rfl⟩
  | cons w ws ih =>
    have one := one_le_length_encodeCP w
    have four := length_encodeCP_le w
    simp only [encodeFrame, List.length_append, List.length_cons]
    omega

/-- Settles O22: a word's operation emits its group (`exec_decodeWord`), and a frame's bounds are those
of a group added up over its words. -/
theorem encoderIsTotalWithBoundedOutput : Obligations.EncoderIsTotalWithBoundedOutput :=
  ⟨fun w => ⟨decodeWord w, rfl, familyOf_decodeWord w, fun s ready =>
      (exec_decodeWord w s).trans (encElement_ready ready)⟩,
    length_encodeCP, length_encodeFrame_bounds⟩

/-! ## The decoder's selection -/

/-- A byte in `START` selects a row of R59. -/
theorem decode_start {rem : Nat} (bits exp : Count5) (b : Byte) (h : 1 ≤ rem) :
    decode (.byte .start rem bits exp b) = .ok (decodeStart rem b) :=
  if_neg (Nat.ne_of_gt h)

/-- A byte in `CONT` selects a row of R60. -/
theorem decode_cont {rem : Nat} (bits exp : Count5) (b : Byte) (h : 1 ≤ rem) :
    decode (.byte .cont rem bits exp b) = decodeCont bits exp b :=
  if_neg (Nat.ne_of_gt h)

/-- A byte in `DRAIN` selects DEC_DRAIN (R61). -/
theorem decode_drain {rem : Nat} (bits exp : Count5) (b : Byte) (h : 1 ≤ rem) :
    decode (.byte .drain rem bits exp b) = .ok (.decDrain b) :=
  if_neg (Nat.ne_of_gt h)

/-- The formats by mask and match (R53). -/
theorem formatOf_iff_mask : ∀ b : Byte,
    (formatOf b = .ascii ↔ b &&& 0x80#8 = 0x00#8) ∧ (formatOf b = .cont ↔ b &&& 0xC0#8 = 0x80#8)
      ∧ (formatOf b = .lead2 ↔ b &&& 0xE0#8 = 0xC0#8)
      ∧ (formatOf b = .lead3 ↔ b &&& 0xF0#8 = 0xE0#8)
      ∧ (formatOf b = .lead4 ↔ b &&& 0xF8#8 = 0xF0#8)
      ∧ (formatOf b = .bad ↔ b &&& 0xF8#8 = 0xF8#8) := by
  decide

/-- The formats by value (R53). -/
theorem formatOf_iff_range : ∀ b : Byte,
    (formatOf b = .ascii ↔ b.toNat ≤ 0x7F) ∧ (formatOf b = .cont ↔ 0x80 ≤ b.toNat ∧ b.toNat ≤ 0xBF)
      ∧ (formatOf b = .lead2 ↔ 0xC0 ≤ b.toNat ∧ b.toNat ≤ 0xDF)
      ∧ (formatOf b = .lead3 ↔ 0xE0 ≤ b.toNat ∧ b.toNat ≤ 0xEF)
      ∧ (formatOf b = .lead4 ↔ 0xF0 ≤ b.toNat ∧ b.toNat ≤ 0xF7)
      ∧ (formatOf b = .bad ↔ 0xF8 ≤ b.toNat) := by
  decide

/-- A byte is its format's match with its payload field in the low bits (R53). -/
theorem byte_eq_marker_or_field : ∀ b : Byte,
    (formatOf b = .ascii → b = 0x00#8 ||| (b.extractLsb' 0 7).setWidth 8)
      ∧ (formatOf b = .cont → b = 0x80#8 ||| (b.extractLsb' 0 6).setWidth 8)
      ∧ (formatOf b = .lead2 → b = 0xC0#8 ||| (b.extractLsb' 0 5).setWidth 8)
      ∧ (formatOf b = .lead3 → b = 0xE0#8 ||| (b.extractLsb' 0 4).setWidth 8)
      ∧ (formatOf b = .lead4 → b = 0xF0#8 ||| (b.extractLsb' 0 3).setWidth 8) := by
  decide

/-- Settles O11, from the formats by mask, by value and by shift (`byte_tests`). -/
theorem byteFormatsByMaskMatchAndValue : Obligations.ByteFormatsByMaskMatchAndValue := by
  intro b
  obtain ⟨mAscii, mCont, mLead2, mLead3, mLead4, mBad⟩ := formatOf_iff_mask b
  obtain ⟨rAscii, rCont, rLead2, rLead3, rLead4, rBad⟩ := formatOf_iff_range b
  obtain ⟨-, sLead2, sLead3, sLead4, -⟩ := byte_tests b
  exact ⟨mAscii, rAscii, mCont, rCont, mLead2, sLead2.symm, rLead2, mLead3, sLead3.symm, rLead3,
    mLead4, sLead4.symm, rLead4, mBad, rBad, byte_eq_marker_or_field b⟩

/-- Settles O12: `decodeStart` read off at each format; for a lead, the count decides the row. -/
theorem selectionInStart : Obligations.SelectionInStart := by
  intro b rem bits exp h
  rw [decode_start bits exp b h]
  unfold decodeStart
  cases formatOf b with
  | ascii | cont | bad => simp
  | lead2 | lead3 | lead4 => simp; omega

/-- Settles O13: `decodeCont` read off at each row, and the counter of an open unit
(`UnitInv.counter`). -/
theorem selectionInCont : Obligations.SelectionInCont := by
  refine ⟨fun b rem bits exp h => ?_, fun u rem hu hm => ?_⟩
  · rw [decode_cont bits exp b h]
    unfold decodeCont
    refine ⟨fun hf below => ?_, fun hf total => ?_, fun hf => if_neg hf⟩
    · rw [if_pos hf, if_pos below]
    · rw [if_pos hf, if_neg total.not_lt, if_pos total]
  · have := hu.counter hm
    omega

/-! ## `DRAIN` -/

/-- A decoder element step enters `DRAIN` only by the unit registers it is given. -/
theorem decElement_enters_drain {u : UnitRegs} {out : List Word} {s t : State}
    (h : decElement u out s = .next t) (before : s.dec.unit.mode ≠ .drain)
    (after : t.dec.unit.mode = .drain) : u.mode = .drain := by
  obtain ⟨-, rfl⟩ | ⟨-, rfl⟩ := decElement_cases h
  · exact after
  · exact absurd after before

/-- An encoder element step leaves the decoder as it was. -/
theorem encElement_dec {g : List Byte} {s t : State} (h : encElement g s = .next t) :
    t.dec = s.dec := by
  obtain ⟨-, rfl⟩ | ⟨-, rfl⟩ := encElement_cases h <;> rfl

/-- Only a truncating operation enters `DRAIN` (R97). -/
theorem exec_enters_drain {i : Instr} {s t : State} (h : exec i s = .next t)
    (before : s.dec.unit.mode ≠ .drain) (after : t.dec.unit.mode = .drain) :
    isTruncating i = true := by
  cases i with
  | enc1B _ | enc2B _ _ | encSur _ | enc3B _ _ _ | enc4B _ _ _ _ | encOvr _ =>
    exact absurd (encElement_dec h ▸ after) before
  | encFrame n =>
    obtain ⟨-, -, rfl⟩ := startFrame_cases (e := .enc) h
    exact absurd after before
  | decFrame n =>
    obtain ⟨-, -, rfl⟩ := startFrame_cases (e := .dec) h
    cases after
  | decLead2Trunc _ | decLead3Trunc _ | decLead4Trunc _ => rfl
  | decLead2 _ | decLead3 _ | decLead4 _ | decStray _ | decBadlead _ | decBadcont _ =>
    cases decElement_enters_drain h before after
  | decAscii _ | decCont _ | decDrain _ =>
    exact absurd (decElement_enters_drain h before after) before
  | decContLast p =>
    change execDecContLast p s = .next t at h
    unfold execDecContLast at h
    split at h
    · obtain ⟨out, he⟩ := emitValidated_element h
      cases decElement_enters_drain he before after
    · cases decElement_enters_drain h before after

/-- A decoder turn in `DRAIN` leaves the unit registers, in any state (R97). -/
theorem engineTurn_dec_drain {s t : State} (hm : s.dec.unit.mode = .drain)
    (h : engineTurn .dec s = .next t) : t.dec.unit = s.dec.unit := by
  by_cases r : DecReady s
  · obtain ⟨b, bs, hi⟩ := List.exists_cons_of_ne_nil r.2.2.1
    simp only [engineTurn, fetch, fetchDec_ready r hi, runFetch, hm, decode_drain _ _ b r.2.1] at h
    cases (decElement_ready r).symm.trans h
    rfl
  · rw [engineTurn_dec_waits r] at h
    cases h
    rfl

/-- The step of an engine that has the turn is its turn, with the schedule moved on. -/
theorem step_of_hasTurn {s : State} {e : Engine} (turn : HasTurn s e) :
    ∃ p k, step s = engineTurn e { s with pending := p, turns := k } := by
  obtain ⟨hp, rfl⟩ | ⟨rest, hp⟩ := turn
  · exact ⟨_, _, step_unscheduled hp⟩
  · exact ⟨_, _, step_scheduled hp⟩

/-- `DRAIN` is left only by a decoder frame command or a hardware reset (R97). -/
theorem step_leaves_drain {s t : State} (h : step s = .next t) (before : s.dec.unit.mode = .drain)
    (after : t.dec.unit.mode ≠ .drain) :
    ∃ rest, s.pending = .hardwareReset :: rest ∨ ∃ n, s.pending = .decCommand n :: rest := by
  have stays : HasTurn s .dec → t.dec.unit = s.dec.unit := fun turn => by
    obtain ⟨p, k, hs⟩ := step_of_hasTurn turn
    exact engineTurn_dec_drain (s := { s with pending := p, turns := k }) before (hs ▸ h)
  obtain ⟨-, effect⟩ := step_effect h
  generalize t.enc = e, t.dec = d at effect stays after
  cases effect with
  | decElement turn ready input stepped => exact absurd (stays turn ▸ before) after
  | decFrame scheduled idle fits => exact ⟨_, .inr ⟨_, scheduled⟩⟩
  | reset scheduled => exact ⟨_, .inl scheduled⟩
  | unchanged | encElement _ _ _ | encFrame _ _ _ | pushEnc _ _ | pushDec _ _ | popEnc _ _
  | popDec _ _ => exact absurd before after

/-- Settles O37: which operation enters `DRAIN` is read off `exec` (`exec_enters_drain`), and what leaves
it off a step's effect (`step_leaves_drain`). -/
theorem decDrainConsumesWithoutOutput : Obligations.DecDrainConsumesWithoutOutput :=
  ⟨fun b _ bits exp => decode_drain bits exp b,
    fun _ _ => decElement_ready,
    fun _ _ _ => exec_enters_drain,
    fun _ _ => step_leaves_drain,
    fun _ _ hu => hu.2.2,
    fun _ => rfl⟩

/-! ## The units of a frame -/

/-- A byte with a continuation's marker has its format and carries the field. -/
theorem cont_field : ∀ c : BitVec 6, formatOf (marked 0x80#8 c) = .cont
    ∧ (marked 0x80#8 c &&& 0x3F#8).setWidth 32 = payload c := by
  decide

/-- A byte with a 2-byte lead's marker has its format and carries the field. -/
theorem lead2_field : ∀ l : BitVec 5, formatOf (marked 0xC0#8 l) = .lead2
    ∧ (marked 0xC0#8 l &&& 0x1F#8).setWidth 32 = payload l := by
  decide

/-- A byte with a 3-byte lead's marker has its format and carries the field. -/
theorem lead3_field : ∀ l : BitVec 4, formatOf (marked 0xE0#8 l) = .lead3
    ∧ (marked 0xE0#8 l &&& 0x0F#8).setWidth 32 = payload l := by
  decide

/-- A byte with a 4-byte lead's marker has its format and carries the field. -/
theorem lead4_field : ∀ l : BitVec 3, formatOf (marked 0xF0#8 l) = .lead4
    ∧ (marked 0xF0#8 l &&& 0x07#8).setWidth 32 = payload l := by
  decide

/-- A 2-byte lead whose unit fits in the frame opens the unit (R86). -/
theorem decodeFrame_lead2 (v : Bool) (l : BitVec 5) {bs : List Byte} (fits : 1 ≤ bs.length) :
    decodeFrame v (marked 0xC0#8 l :: bs) = decodeFrom v ⟨.cont, payload l, 5#5, 11#5⟩ bs := by
  obtain ⟨format, field⟩ := lead2_field l
  obtain ⟨ascii, lead2, -⟩ := byte_tests (marked 0xC0#8 l)
  simp [decodeFrame, decodeFrom, decodeStep, ascii, lead2, format, field, fits]

/-- A 3-byte lead whose unit fits in the frame opens the unit (R88). -/
theorem decodeFrame_lead3 (v : Bool) (l : BitVec 4) {bs : List Byte} (fits : 2 ≤ bs.length) :
    decodeFrame v (marked 0xE0#8 l :: bs) = decodeFrom v ⟨.cont, payload l, 4#5, 16#5⟩ bs := by
  obtain ⟨format, field⟩ := lead3_field l
  obtain ⟨ascii, lead2, lead3, -⟩ := byte_tests (marked 0xE0#8 l)
  simp [decodeFrame, decodeFrom, decodeStep, ascii, lead2, lead3, format, field, fits]

/-- A 4-byte lead whose unit fits in the frame opens the unit (R90). -/
theorem decodeFrame_lead4 (v : Bool) (l : BitVec 3) {bs : List Byte} (fits : 3 ≤ bs.length) :
    decodeFrame v (marked 0xF0#8 l :: bs) = decodeFrom v ⟨.cont, payload l, 3#5, 21#5⟩ bs := by
  obtain ⟨format, field⟩ := lead4_field l
  obtain ⟨ascii, lead2, lead3, lead4, -⟩ := byte_tests (marked 0xF0#8 l)
  simp [decodeFrame, decodeFrom, decodeStep, ascii, lead2, lead3, lead4, format, field, fits]

/-- A continuation byte below the expected total is accumulated (R94). -/
theorem decodeFrom_cont {acc : Word} {bits exp : Count5} (v : Bool) (c : BitVec 6) (bs : List Byte)
    (below : bits.toNat + 6 < exp.toNat) :
    decodeFrom v ⟨.cont, acc, bits, exp⟩ (marked 0x80#8 c :: bs)
      = decodeFrom v ⟨.cont, accumulate acc c, bits + 6#5, exp⟩ bs := by
  obtain ⟨format, field⟩ := cont_field c
  obtain ⟨-, -, -, -, cont⟩ := byte_tests (marked 0x80#8 c)
  simp [decodeFrom, decodeStep, accumulate, cont, format, field, below]

/-- A continuation byte at the expected total completes the unit, and the next byte is in `START`
(R95). -/
theorem decodeFrom_contLast {acc : Word} {bits exp : Count5} (v : Bool) (c : BitVec 6)
    (bs : List Byte) (total : bits.toNat + 6 = exp.toNat) :
    decodeFrom v ⟨.cont, acc, bits, exp⟩ (marked 0x80#8 c :: bs)
      = completedWord v exp (accumulate acc c) :: decodeFrame v bs := by
  obtain ⟨format, field⟩ := cont_field c
  obtain ⟨-, -, -, -, cont⟩ := byte_tests (marked 0x80#8 c)
  simp [decodeFrom, decodeStep, decodeFrame, accumulate, cont, format, field, total]

/-- A 2-byte unit at the head of a frame. -/
theorem decodeFrame_group2 (v : Bool) (l : BitVec 5) (c : BitVec 6) (bs : List Byte) :
    decodeFrame v (group2 l c ++ bs)
      = completedWord v 11#5 (accumulate (payload l) c) :: decodeFrame v bs :=
  calc decodeFrame v (group2 l c ++ bs)
    _ = decodeFrom v ⟨.cont, _, 5#5, 11#5⟩ (marked 0x80#8 c :: bs) :=
      decodeFrame_lead2 v l (by simp)
    _ = _ := decodeFrom_contLast v c bs (by decide)

/-- A 3-byte unit at the head of a frame. -/
theorem decodeFrame_group3 (v : Bool) (l : BitVec 4) (c d : BitVec 6) (bs : List Byte) :
    decodeFrame v (group3 l c d ++ bs)
      = completedWord v 16#5 (accumulate (accumulate (payload l) c) d) :: decodeFrame v bs :=
  calc decodeFrame v (group3 l c d ++ bs)
    _ = decodeFrom v ⟨.cont, _, 4#5, 16#5⟩ (marked 0x80#8 c :: marked 0x80#8 d :: bs) :=
      decodeFrame_lead3 v l (by simp)
    _ = decodeFrom v ⟨.cont, _, 10#5, 16#5⟩ (marked 0x80#8 d :: bs) :=
      decodeFrom_cont v c _ (by decide)
    _ = _ := decodeFrom_contLast v d bs (by decide)

/-- A 4-byte unit at the head of a frame. -/
theorem decodeFrame_group4 (v : Bool) (l : BitVec 3) (c d e : BitVec 6) (bs : List Byte) :
    decodeFrame v (group4 l c d e ++ bs)
      = completedWord v 21#5 (accumulate (accumulate (accumulate (payload l) c) d) e)
          :: decodeFrame v bs :=
  calc decodeFrame v (group4 l c d e ++ bs)
    _ = decodeFrom v ⟨.cont, _, 3#5, 21#5⟩
          (marked 0x80#8 c :: marked 0x80#8 d :: marked 0x80#8 e :: bs) :=
      decodeFrame_lead4 v l (by simp)
    _ = decodeFrom v ⟨.cont, _, 9#5, 21#5⟩ (marked 0x80#8 d :: marked 0x80#8 e :: bs) :=
      decodeFrom_cont v c _ (by decide)
    _ = decodeFrom v ⟨.cont, _, 15#5, 21#5⟩ (marked 0x80#8 e :: bs) :=
      decodeFrom_cont v d _ (by decide)
    _ = _ := decodeFrom_contLast v e bs (by decide)

/-! ## A unit's value as a weighted sum -/

/-- A zero-extended field keeps its value. -/
theorem toNat_payload {n : Nat} (p : BitVec n) (h : n ≤ 32) : (payload p).toNat = p.toNat :=
  BitVec.toNat_setWidth_of_le h

/-- A zero-extended field fits in as many bits as the field. -/
theorem toNat_payload_lt {n k : Nat} (p : BitVec n) (h : n ≤ k) : (payload p).toNat < 2 ^ k := by
  rw [payload, BitVec.toNat_setWidth]
  calc p.toNat % 2 ^ 32
    _ ≤ p.toNat := Nat.mod_le _ _
    _ < 2 ^ n := p.isLt
    _ ≤ 2 ^ k := Nat.pow_le_pow_right (by decide) h

/-- An accumulated field stands below the accumulator's value, which must not leave the word. -/
theorem toNat_accumulate {acc : Word} (c : BitVec 6) (h : acc.toNat < 2 ^ 26) :
    (accumulate acc c).toNat = acc.toNat * 2 ^ 6 + c.toNat := by
  have shifted : (acc <<< 6).toNat = acc.toNat <<< 6 := by
    rw [BitVec.toNat_shiftLeft, Nat.mod_eq_of_lt (by rw [Nat.shiftLeft_eq]; omega)]
  rw [accumulate, BitVec.toNat_or, shifted, toNat_payload c (by decide),
    ← Nat.shiftLeft_add_eq_or_of_lt c.isLt, Nat.shiftLeft_eq]

/-- Two accumulated fields. -/
theorem toNat_accumulate_two {acc : Word} (c d : BitVec 6) (h : acc.toNat < 2 ^ 20) :
    (accumulate (accumulate acc c) d).toNat
      = acc.toNat * 2 ^ 12 + (c.toNat * 2 ^ 6 + d.toNat) := by
  have first := toNat_accumulate (acc := acc) c (by omega)
  rw [toNat_accumulate d (by omega), first]
  ring

/-- Three accumulated fields. -/
theorem toNat_accumulate_three {acc : Word} (c d e : BitVec 6) (h : acc.toNat < 2 ^ 14) :
    (accumulate (accumulate (accumulate acc c) d) e).toNat
      = acc.toNat * 2 ^ 18 + (c.toNat * 2 ^ 12 + (d.toNat * 2 ^ 6 + e.toNat)) := by
  have first := toNat_accumulate (acc := acc) c (by omega)
  rw [toNat_accumulate_two d e (by omega), first]
  ring

/-- Settles O43: the fields accumulate to the weighted sum (`toNat_accumulate`), and the group at the
head of a frame emits what they accumulate to, which the validator's absence leaves as it is. -/
theorem unvalidatedUnitsAreEmittedAsAssembled :
    Obligations.UnvalidatedUnitsAreEmittedAsAssembled := by
  refine ⟨fun l c bs => ⟨accumulate (payload l) c, rfl, ?_, decodeFrame_group2 false l c bs⟩,
    fun l c d bs => ⟨accumulate (accumulate (payload l) c) d, rfl, ?_,
      decodeFrame_group3 false l c d bs⟩,
    fun l c d e bs => ⟨accumulate (accumulate (accumulate (payload l) c) d) e, rfl, ?_,
      decodeFrame_group4 false l c d e bs⟩⟩
  · rw [toNat_accumulate c (toNat_payload_lt l (by decide)), toNat_payload l (by decide)]
  · rw [toNat_accumulate_two c d (toNat_payload_lt l (by decide)), toNat_payload l (by decide)]
  · rw [toNat_accumulate_three c d e (toNat_payload_lt l (by decide)), toNat_payload l (by decide)]

end Sys2Proof.Machine
end

section
/-! PROOFS. The family 40_encoder.md: `BITW`, the operation each class of words selects and what it
emits, the encoder's element step, and a frame's output under any schedule. -/

namespace Sys2Proof.Machine

/-! ## `BITW` -/

/-- `BITW` of a nonzero word is one more than its binary logarithm (R71). -/
theorem bitw_eq_log2 {w : Word} (h : w ≠ 0#32) : bitw w = Nat.log2 w.toNat + 1 := by
  have nonzero : w.toNat ≠ 0 := fun h0 => h (BitVec.eq_of_toNat_eq h0)
  refine eq_of_forall_ge_iff fun n => ?_
  rw [bitw_le_iff, Nat.succ_le_iff, Nat.log2_lt nonzero]

/-- The bit at the index of the binary logarithm is the most significant 1 bit. -/
theorem log2_is_top_bit {w : Word} (h : w ≠ 0#32) : w.getLsbD (Nat.log2 w.toNat) = true
    ∧ ∀ j : Nat, Nat.log2 w.toNat < j → w.getLsbD j = false := by
  have nonzero : w.toNat ≠ 0 := fun h0 => h (BitVec.eq_of_toNat_eq h0)
  simp only [← BitVec.testBit_toNat]
  exact ⟨Nat.testBit_log2 nonzero,
    fun j hj => Nat.testBit_lt_two_pow ((Nat.log2_lt nonzero).mp hj)⟩

/-- Settles O9: `bitw_le_iff` makes `BITW` the binary logarithm plus one, whose bit is the top one. -/
theorem bitwIsTheBitWidth : Obligations.BitwIsTheBitWidth := by
  refine ⟨fun w => (bitw_le_iff w 32).mpr w.isLt, by decide, fun w hw => ?_, fun w => bitw_eq_log2,
    by decide, by decide, by decide, by decide⟩
  exact ⟨Nat.log2 w.toNat, (bitw_eq_log2 hw).trans (Nat.add_comm _ _), log2_is_top_bit hw⟩

/-! ## What a word's operation emits -/

/-- A word selects an operation that, when enabled, emits `EncodeCP` of the word. -/
theorem decode_word_emits (w : Word) {s : State} (ready : EncReady s) :
    ∃ i, decode (.word w) = .ok i ∧ exec i s = .next (encAfter (encodeCP w) s) :=
  ⟨decodeWord w, rfl, (exec_decodeWord w s).trans (encElement_ready ready)⟩

/-- Element steps that leave the same state emitted the same group. -/
theorem encAfter_injective {g g' : List Byte} {s : State} (h : encAfter g s = encAfter g' s) :
    g = g' :=
  List.append_cancel_left (congrArg (·.enc.output) h)

/-- `EncodeCP` of a word is the group that its operation emits. -/
theorem encodeCP_eq_of_emits {w : Word} {i : Instr} {g : List Byte} {s : State}
    (selected : decodeWord w = i) (ready : EncReady s) (emits : exec i s = .next (encAfter g s)) :
    encodeCP w = g := by
  subst selected
  rw [exec_decodeWord, encElement_ready ready, Host.Outcome.next.injEq] at emits
  exact encAfter_injective emits

/-! ## The operation each class of words selects (R57) -/

/-- Words of 8 to 11 bits (R75). -/
theorem decodeWord_enc2B {w : Word} (h8 : 8 ≤ bitw w) (h11 : bitw w ≤ 11) :
    decodeWord w = .enc2B (w.extractLsb' 6 5) (w.extractLsb' 0 6) := by
  rw [decodeWord, if_neg (by omega), if_pos h11]

/-- The surrogates (R76). -/
theorem decodeWord_encSur {w : Word} (h12 : 12 ≤ bitw w) (h16 : bitw w ≤ 16)
    (hs : isSurrogate w.toNat) : decodeWord w = .encSur (w.extractLsb' 0 11) := by
  rw [decodeWord, if_neg (by omega), if_neg (by omega), if_pos ⟨h16, hs⟩]

/-- Words of 12 to 16 bits that are no surrogate (R77). -/
theorem decodeWord_enc3B {w : Word} (h12 : 12 ≤ bitw w) (h16 : bitw w ≤ 16)
    (hs : ¬ isSurrogate w.toNat) : decodeWord w
      = .enc3B (w.extractLsb' 12 4) (w.extractLsb' 6 6) (w.extractLsb' 0 6) := by
  rw [decodeWord, if_neg (by omega), if_neg (by omega), if_neg (fun h => hs h.2), if_pos h16]

/-- Words of 17 to 21 bits up to 0x10FFFF (R78). -/
theorem decodeWord_enc4B {w : Word} (h17 : 17 ≤ bitw w) (h21 : bitw w ≤ 21)
    (hm : w.toNat ≤ 0x10FFFF) : decodeWord w
      = .enc4B (w.extractLsb' 18 3) (w.extractLsb' 12 6) (w.extractLsb' 6 6)
          (w.extractLsb' 0 6) := by
  rw [decodeWord, if_neg (by omega), if_neg (by omega), if_neg (by omega), if_neg (by omega),
    if_pos ⟨h21, hm⟩]

/-- All larger words (R79). -/
theorem decodeWord_encOvr {w : Word} (h : 0x10FFFF < w.toNat) : decodeWord w = .encOvr w := by
  obtain ⟨h7, h11, h16, -⟩ := bitw_tests w
  rw [decodeWord, if_neg (by omega), if_neg (by omega), if_neg (by omega), if_neg (by omega),
    if_neg (by omega)]

/-! ## The lead bytes -/

/-- A field with a 2-byte lead's marker is a lead of 0xC2 to 0xDF, for a field of 2 or more. -/
theorem lead2_range : ∀ l : BitVec 5, 2 ≤ l.toNat →
    0xC2 ≤ (0xC0#8 ||| l.setWidth 8).toNat ∧ (0xC0#8 ||| l.setWidth 8).toNat ≤ 0xDF := by
  decide

/-- A field with a 4-byte lead's marker is a lead of 0xF0 to 0xF4, for a field of 4 or less. -/
theorem lead4_range : ∀ l : BitVec 3, l.toNat ≤ 4 →
    0xF0 ≤ (0xF0#8 ||| l.setWidth 8).toNat ∧ (0xF0#8 ||| l.setWidth 8).toNat ≤ 0xF4 := by
  decide

/-- The high field of a 2-byte group is at least 2. -/
theorem two_le_lead2_field {w : Word} (h8 : 8 ≤ bitw w) (h11 : bitw w ≤ 11) :
    2 ≤ (w.extractLsb' 6 5).toNat := by
  obtain ⟨t7, t11, -, -⟩ := bitw_tests w
  rw [BitVec.extractLsb'_toNat, Nat.shiftRight_eq_div_pow]
  omega

/-- The high field of a 4-byte group is at most 4. -/
theorem lead4_field_le_four {w : Word} (hm : w.toNat ≤ 0x10FFFF) :
    (w.extractLsb' 18 3).toNat ≤ 4 := by
  rw [BitVec.extractLsb'_toNat, Nat.shiftRight_eq_div_pow]
  omega

/-! ## The six operations -/

/-- Settles O14: the class is `bitw_tests`, a word below 0x80 has bit 7 clear, and the operation it
selects emits `EncodeCP` of it. -/
theorem enc1BEmitsTheWordAsOneByte : Obligations.Enc1BEmitsTheWordAsOneByte := by
  refine ⟨fun w => (bitw_tests w).1.trans Nat.lt_succ_iff, fun w s h7 ready => ?_,
    fun _ _ => encElement_ready, by decide, by decide, by decide⟩
  have group : encodeCP w = [w.setWidth 8] := if_pos h7
  have bit7 : w.getLsbD 7 = false := by
    rw [← BitVec.testBit_toNat]
    exact Nat.testBit_lt_two_pow ((bitw_le_iff w 7).mp h7)
  exact ⟨group, by simpa using bit7, group ▸ decode_word_emits w ready⟩

/-- Settles O15: the selected operation emits the group, and its high field bounds the lead byte. -/
theorem enc2BEmitsTwoMarkedBytes : Obligations.Enc2BEmitsTwoMarkedBytes := by
  refine ⟨fun w => ?_, fun w s h8 h11 ready => ?_, fun _ _ _ => encElement_ready,
    by decide, by decide, by decide⟩
  · obtain ⟨t7, t11, -, -⟩ := bitw_tests w
    omega
  · obtain ⟨low, high⟩ := lead2_range _ (two_le_lead2_field h8 h11)
    exact ⟨encodeCP_eq_of_emits (decodeWord_enc2B h8 h11) ready (encElement_ready ready), low, high,
      decode_word_emits w ready⟩

/-- Settles O16: a surrogate selects ENC_SUR, which emits the marker; its neighbours lie in ENC_3B's
value range. -/
theorem encSurEmitsTheMarker : Obligations.EncSurEmitsTheMarker := by
  have marker : ∀ (low : BitVec 11) (s : State), EncReady s →
      exec (.encSur low) s = .next (encAfter replBytes s) := fun _ _ => encElement_ready
  have class3 := fun w => (encoderClassesAreValueRanges.2 w).2.2.1
  refine ⟨fun w s h12 h16 hlo hhi ready => ?_, marker, by decide, by decide,
    (class3 _).mpr (by decide), (class3 _).mpr (by decide), by decide⟩
  have selected := decodeWord_encSur h12 h16 ⟨hlo, hhi⟩
  exact ⟨encodeCP_eq_of_emits selected ready (marker _ s ready), congrArg _ selected,
    marker _ s ready⟩

/-- Settles O17: the selected operation emits the group. -/
theorem enc3BEmitsThreeMarkedBytes : Obligations.Enc3BEmitsThreeMarkedBytes := by
  refine ⟨fun w => ?_, fun w s h12 h16 hs ready => ?_, fun _ _ _ _ => encElement_ready,
    by decide, by decide, by decide, by decide, by decide, by decide, by decide⟩
  · obtain ⟨-, t11, t16, -⟩ := bitw_tests w
    omega
  · exact ⟨encodeCP_eq_of_emits (decodeWord_enc3B h12 h16 hs) ready (encElement_ready ready),
      decode_word_emits w ready⟩

/-- Settles O18: the selected operation emits the group, and its high field bounds the lead byte. -/
theorem enc4BEmitsFourMarkedBytes : Obligations.Enc4BEmitsFourMarkedBytes := by
  refine ⟨fun w => ?_, fun w s h17 h21 hm ready => ?_, fun _ _ _ _ _ => encElement_ready,
    by decide, by decide, by decide⟩
  · obtain ⟨-, -, t16, t21⟩ := bitw_tests w
    omega
  · obtain ⟨low, high⟩ := lead4_range _ (lead4_field_le_four hm)
    exact ⟨encodeCP_eq_of_emits (decodeWord_enc4B h17 h21 hm) ready (encElement_ready ready), low,
      high, decode_word_emits w ready⟩

/-- Settles O19: a word above 0x10FFFF selects ENC_OVR, which emits the marker. -/
theorem encOvrEmitsTheMarker : Obligations.EncOvrEmitsTheMarker := by
  have marker : ∀ (w : Word) (s : State), EncReady s →
      exec (.encOvr w) s = .next (encAfter replBytes s) := fun _ _ => encElement_ready
  refine ⟨fun w s h ready => ?_, marker, by decide, by decide, by decide, by decide, by decide,
    by decide⟩
  have selected := decodeWord_encOvr h
  exact ⟨encodeCP_eq_of_emits selected ready (marker w s ready), congrArg _ selected⟩

/-! ## The element step -/

/-- Settles O21: a scheduled turn is `engineTurn`, which takes the step when it is enabled
(`engineTurn_enc_ready`) and waits where a condition fails. -/
theorem encoderElementStep : Obligations.EncoderElementStep := by
  refine ⟨fun s w ws rest hp active remaining hi room => ?_, fun s t rest hp fails h => ?_⟩
  · have ready : EncReady (s.withPending rest) := ⟨active, remaining, by simp [hi], room⟩
    rw [step_scheduled hp, runEvent, engineTurn_enc_ready ready hi]
    simp only [encAfter, State.withPending_enc, hi, List.tail_cons]
    rfl
  · have waits : ¬ EncReady (s.withPending rest) := by
      rintro ⟨active, -, input, room⟩
      simp only [State.withPending_enc, State.withPending_cfg] at active input room
      obtain idle | empty | full := fails
      · simp [idle] at active
      · exact input empty
      · omega
    rw [step_scheduled hp, runEvent, engineTurn_enc_waits waits] at h
    cases h
    rfl

/-! ## A frame's output under any schedule -/

/-- `Encode` of two lists of words in a row (R80). -/
theorem encodeFrame_append (ws vs : List Word) :
    encodeFrame (ws ++ vs) = encodeFrame ws ++ encodeFrame vs := by
  induction ws with
  | nil => rfl
  | cons w ws ih => simp [encodeFrame, ih]

/-- From `s` to `t`, inside one frame and with `pushed` put into `ENC_IN`, the encoder takes words from
the head of its input, counts each of them off `E.rem`, and emits exactly `Encode` of them. -/
def EncFrameRun (pushed : List Word) (s t : State) : Prop :=
  ∃ ws : List Word, s.enc.input ++ pushed = ws ++ t.enc.input
    ∧ ws.length + t.enc.rem = s.enc.rem ∧ t.encProduced = s.encProduced ++ encodeFrame ws

/-- Where nothing moves the encoder takes no word. -/
theorem EncFrameRun.refl (s : State) : EncFrameRun [] s s :=
  ⟨[], by simp, by simp, by simp [encodeFrame]⟩

/-- Two stretches of a frame make one. -/
theorem EncFrameRun.trans {pushed later : List Word} {s m t : State}
    (first : EncFrameRun pushed s m) (second : EncFrameRun later m t) :
    EncFrameRun (pushed ++ later) s t := by
  obtain ⟨ws, input, count, produced⟩ := first
  obtain ⟨vs, input', count', produced'⟩ := second
  refine ⟨ws ++ vs, ?_, ?_, ?_⟩
  · rw [← List.append_assoc, input, List.append_assoc, input', List.append_assoc]
  · rw [List.length_append]
    omega
  · rw [produced', produced, encodeFrame_append, List.append_assoc]

/-- The moves of a frame's schedule: no hardware reset and no other encoder command. -/
abbrev InsideEncFrame (ev : Event) : Prop := ev ≠ .hardwareReset ∧ ∀ m : Nat, ev ≠ .encCommand m

/-- What a scheduled move leaves of the schedule and, inside a frame, of the encoder's registers: the
busy bit still says whether words remain, and each word that leaves `ENC_IN` is counted off `E.rem`. -/
structure EncKept (ev : Event) (s t : State) : Prop where
  pending : t.pending = s.pending
  active : s.enc.active = frameOpen s.enc.rem → t.enc.active = frameOpen t.enc.rem
  count : s.enc.input.length + (pushedWords ev).length + t.enc.rem
    = t.enc.input.length + s.enc.rem

/-- Every move inside a frame keeps the schedule, the busy bit and the count. -/
theorem runEvent_encKept {ev : Event} {s t : State} (inside : InsideEncFrame ev)
    (h : runEvent ev s = .next t) : EncKept ev s t := by
  cases ev with
  | turn e =>
    cases e with
    | enc =>
      obtain ⟨-, rfl⟩ | ⟨w, ws, ready, hi, rfl⟩ := engineTurn_enc_cases h
      · exact ⟨rfl, id, rfl⟩
      · have remaining : 1 ≤ s.enc.rem := ready.2.1
        refine ⟨rfl, fun _ => rfl, ?_⟩
        simp only [encAfter, State.withEnc_enc, hi, List.tail_cons, List.length_cons, pushedWords,
          List.length_nil]
        omega
    | dec =>
      obtain ⟨-, rfl⟩ | ⟨b, bs, u, out, -, -, rfl, -⟩ := engineTurn_dec_consumes h
      · exact ⟨rfl, id, rfl⟩
      · exact ⟨rfl, id, rfl⟩
  | encCommand n => exact absurd rfl (inside.2 n)
  | decCommand n =>
    obtain ⟨-, -, rfl⟩ := startFrame_cases (e := .dec) h
    exact ⟨rfl, id, rfl⟩
  | pushEnc w =>
    obtain ⟨-, rfl⟩ := pushEnc_cases h
    exact ⟨rfl, id, by simp [pushedWords]⟩
  | pushDec b =>
    obtain ⟨-, rfl⟩ := pushDec_cases h
    exact ⟨rfl, id, rfl⟩
  | popEnc =>
    obtain ⟨b, bs, -, rfl⟩ := popEnc_cases h
    exact ⟨rfl, id, rfl⟩
  | popDec =>
    obtain ⟨w, ws, -, rfl⟩ := popDec_cases h
    exact ⟨rfl, id, rfl⟩
  | readEncBusy | readDecBusy =>
    cases h
    exact ⟨rfl, id, rfl⟩
  | hardwareReset => exact absurd rfl inside.1

/-- A move inside a frame is a stretch of the frame: the order of the encoder's output gives the word
taken, and the count of `ENC_IN` ties it to `E.rem`. -/
theorem runEvent_encFrameRun {ev : Event} {s t : State} (inside : InsideEncFrame ev)
    (h : runEvent ev s = .next t) : EncFrameRun (pushedWords ev) s t := by
  obtain ⟨ws, -, input, produced⟩ := (runEvent_inOrder inside.1 h).1
  have lengths := congrArg List.length input
  have count := (runEvent_encKept inside h).count
  simp only [List.length_append] at lengths
  exact ⟨ws, input, by omega, produced⟩

/-- Any schedule inside a frame is a stretch of the frame, and keeps the busy bit. -/
theorem runSteps_encFrameRun {evs rest : List Event} :
    ∀ {s t : State}, s.pending = evs ++ rest → (∀ ev ∈ evs, InsideEncFrame ev) →
      s.enc.active = frameOpen s.enc.rem → runSteps evs.length s = .next t →
      EncFrameRun (evs.flatMap pushedWords) s t ∧ t.enc.active = frameOpen t.enc.rem := by
  induction evs with
  | nil =>
    intro s t _ _ active h
    cases h
    exact ⟨.refl s, active⟩
  | cons ev evs ih =>
    intro s t hp inside active h
    obtain ⟨m, first, later⟩ := runSteps_succ h
    rw [step_scheduled hp] at first
    have insideEv : InsideEncFrame ev := inside ev List.mem_cons_self
    have kept := runEvent_encKept insideEv first
    obtain ⟨run, busy⟩ := ih kept.pending (fun e he => inside e (List.mem_cons_of_mem ev he))
      (kept.active active) later
    exact ⟨(runEvent_encFrameRun insideEv first).trans run, busy⟩

/-- Settles O23: an accepted command sets `E.rem` to `n` and takes and emits nothing; from there the
schedule is one stretch of the frame, by induction over its moves (`runSteps_encFrameRun`). -/
theorem encoderFrameOutputUnderAnySchedule : Obligations.EncoderFrameOutputUnderAnySchedule := by
  refine ⟨rfl, fun _ _ => rfl, fun s t n evs rest hp inside h => ?_⟩
  obtain ⟨m, first, later⟩ := runSteps_succ h
  rw [step_scheduled hp] at first
  obtain ⟨-, -, rfl⟩ := startFrame_cases (e := .enc) first
  obtain ⟨⟨ws, input, count, produced⟩, active⟩ := runSteps_encFrameRun rfl inside rfl later
  exact ⟨ws, input, count, by simp [active, Nat.one_le_iff_ne_zero], produced⟩

end Sys2Proof.Machine
end

section
/-! PROOFS. The family 41_decoder.md: a frame's output under any schedule, the decoder's totality,
its element step, and the operation each byte selects and what it does. -/

namespace Sys2Proof.Machine

/-! ## A frame's output under any schedule -/

/-- The decoder's registers inside a frame: the busy bit says whether bytes remain (R21), and the
unit registers are legal for them (R27 to R29). -/
structure DecInFrame (d : Decoder) : Prop where
  active : d.active = frameOpen d.rem
  unit : UnitInv d.unit d.rem

/-- A frame that has just begun, whatever its count (R98). -/
theorem DecInFrame.started (n : Nat) (s : State) : DecInFrame (decFrameAfter n s).dec :=
  ⟨rfl, unitInv_clear (by decide) (by simp)⟩

/-- A byte taken inside a frame leaves the decoder inside it. -/
theorem DecInFrame.element {s : State} {b : Byte} {u : UnitRegs} {out : List Word}
    (hd : DecInFrame s.dec)
    (stepped : (u, out) = decodeStep s.cfg.decValidate s.dec.unit s.dec.rem b) :
    DecInFrame (decAfter u out s).dec := by
  obtain ⟨legal, -⟩ := decodeStep_inv s.cfg.decValidate b hd.unit
  rw [← stepped] at legal
  exact ⟨rfl, legal⟩

/-- No unit is open where no byte remains (R29). -/
theorem UnitInv.mode_ne_cont {u : UnitRegs} (hu : UnitInv u 0) : u.mode ≠ .cont := by
  intro hm
  obtain ⟨counts, -, left⟩ := hu.2.1 hm
  simp [openCounts] at counts
  omega

/-- From `s` to `t`, inside one frame and with `pushed` put into `DEC_IN`, the decoder takes bytes
from the head of its input, counts each of them off `D.rem`, and emits words; whatever bytes
complete the frame, `Decode` from the registers of `s` is those words and then `Decode` from the
registers of `t`. -/
def DecFrameRun (pushed : List Byte) (s t : State) : Prop :=
  t.cfg = s.cfg ∧ ∃ (bs : List Byte) (out : List Word),
    s.dec.input ++ pushed = bs ++ t.dec.input
      ∧ bs.length + t.dec.rem = s.dec.rem ∧ t.decProduced = s.decProduced ++ out
      ∧ ∀ more : List Byte, more.length = t.dec.rem →
          decodeFrom s.cfg.decValidate s.dec.unit (bs ++ more)
            = out ++ decodeFrom s.cfg.decValidate t.dec.unit more

/-- A move that takes no byte leaves all of the frame to decode. -/
theorem DecFrameRun.of_takes_none {pushed : List Byte} {s t : State} (cfg : t.cfg = s.cfg)
    (rem : t.dec.rem = s.dec.rem) (unit : t.dec.unit = s.dec.unit)
    (input : s.dec.input ++ pushed = t.dec.input) (produced : t.decProduced = s.decProduced) :
    DecFrameRun pushed s t :=
  ⟨cfg, [], [], input, by simpa using rem, by simpa using produced, fun _ _ => by simp [unit]⟩

/-- A byte taken is one step of `Decode` with the bytes left. -/
theorem DecFrameRun.element {s : State} {b : Byte} {bs : List Byte} {u : UnitRegs} {out : List Word}
    (ready : DecReady s) (hi : s.dec.input = b :: bs)
    (stepped : (u, out) = decodeStep s.cfg.decValidate s.dec.unit s.dec.rem b) :
    DecFrameRun [] s (decAfter u out s) := by
  have one : s.dec.rem - 1 + 1 = s.dec.rem := Nat.sub_add_cancel ready.2.1
  refine ⟨rfl, [b], out, by simp [decAfter, hi], (Nat.add_comm _ _).trans one,
    by simp [decAfter, State.decProduced], fun more left => ?_⟩
  have count : more.length + 1 = s.dec.rem := left ▸ one
  simp only [List.singleton_append, decodeFrom, count, ← stepped]
  rfl

/-- Two stretches of a frame make one. -/
theorem DecFrameRun.trans {pushed later : List Byte} {s m t : State}
    (first : DecFrameRun pushed s m) (second : DecFrameRun later m t) :
    DecFrameRun (pushed ++ later) s t := by
  obtain ⟨cfg, bs, out, input, count, produced, decodes⟩ := first
  obtain ⟨cfg', cs, out', input', count', produced', decodes'⟩ := second
  refine ⟨cfg'.trans cfg, bs ++ cs, out ++ out', ?_, ?_, ?_, fun more left => ?_⟩
  · rw [← List.append_assoc, input, List.append_assoc, input', List.append_assoc]
  · rw [List.length_append]
    omega
  · rw [produced', produced, List.append_assoc]
  · rw [cfg] at decodes'
    rw [List.append_assoc, decodes (cs ++ more) (by rw [List.length_append]; omega),
      decodes' more left, List.append_assoc]

/-- The moves of a frame's schedule: no hardware reset and no other decoder command. -/
abbrev InsideDecFrame (ev : Event) : Prop := ev ≠ .hardwareReset ∧ ∀ m : Nat, ev ≠ .decCommand m

/-- What a scheduled move inside a frame leaves: the schedule, a decoder inside its frame, and one
more stretch of the frame. -/
structure DecFrameMove (ev : Event) (s t : State) : Prop where
  pending : t.pending = s.pending
  inFrame : DecInFrame t.dec
  run : DecFrameRun (pushedBytes ev) s t

/-- What leaves the decoder and all it ever emitted, and pushes no byte, is such a move. -/
theorem DecFrameMove.of_same {ev : Event} {s t : State} (hd : DecInFrame s.dec)
    (cfg : t.cfg = s.cfg) (pending : t.pending = s.pending) (dec : t.dec = s.dec)
    (produced : t.decProduced = s.decProduced) (pushes : pushedBytes ev = []) :
    DecFrameMove ev s t :=
  ⟨pending, dec ▸ hd, .of_takes_none cfg (by rw [dec]) (by rw [dec])
    (by rw [pushes, dec, List.append_nil]) produced⟩

/-- Every move inside a frame is a stretch of it; only an enabled decoder turn takes a byte. -/
theorem runEvent_decFrameMove {ev : Event} {s t : State} (inside : InsideDecFrame ev)
    (hd : DecInFrame s.dec) (h : runEvent ev s = .next t) : DecFrameMove ev s t := by
  cases ev with
  | turn e =>
    cases e with
    | enc =>
      obtain ⟨-, rfl⟩ | ⟨w, ws, -, -, rfl⟩ := engineTurn_enc_cases h
      · exact .of_same hd rfl rfl rfl rfl rfl
      · exact .of_same hd rfl rfl rfl rfl rfl
    | dec =>
      obtain ⟨-, rfl⟩ | ⟨b, bs, ready, hi, rfl⟩ := engineTurn_dec_cases hd.unit h
      · exact .of_same hd rfl rfl rfl rfl rfl
      · exact ⟨rfl, hd.element rfl, .element ready hi rfl⟩
  | encCommand n =>
    obtain ⟨-, -, rfl⟩ := startFrame_cases (e := .enc) h
    exact .of_same hd rfl rfl rfl rfl rfl
  | decCommand n => exact absurd rfl (inside.2 n)
  | pushEnc w =>
    obtain ⟨-, rfl⟩ := pushEnc_cases h
    exact .of_same hd rfl rfl rfl rfl rfl
  | pushDec b =>
    obtain ⟨-, rfl⟩ := pushDec_cases h
    exact ⟨rfl, ⟨hd.active, hd.unit⟩, .of_takes_none rfl rfl rfl rfl rfl⟩
  | popEnc =>
    obtain ⟨b, bs, -, rfl⟩ := popEnc_cases h
    exact .of_same hd rfl rfl rfl rfl rfl
  | popDec =>
    obtain ⟨w, ws, ho, rfl⟩ := popDec_cases h
    exact ⟨rfl, ⟨hd.active, hd.unit⟩, .of_takes_none rfl rfl rfl (List.append_nil _)
      (by simp [State.decProduced, ho])⟩
  | readEncBusy | readDecBusy =>
    cases h
    exact .of_same hd rfl rfl rfl rfl rfl
  | hardwareReset => exact absurd rfl inside.1

/-- Any schedule inside a frame is a stretch of the frame, and leaves the decoder inside it. -/
theorem runSteps_decFrameRun {evs rest : List Event} :
    ∀ {s t : State}, s.pending = evs ++ rest → (∀ ev ∈ evs, InsideDecFrame ev) →
      DecInFrame s.dec → runSteps evs.length s = .next t →
      DecFrameRun (evs.flatMap pushedBytes) s t ∧ DecInFrame t.dec := by
  induction evs with
  | nil =>
    intro s t _ _ hd h
    cases h
    exact ⟨.of_takes_none rfl rfl rfl (List.append_nil _) rfl, hd⟩
  | cons ev evs ih =>
    intro s t hp inside hd h
    obtain ⟨m, first, later⟩ := runSteps_succ h
    rw [step_scheduled hp] at first
    have move := runEvent_decFrameMove (s := s.withPending (evs ++ rest))
      (inside ev List.mem_cons_self) hd first
    obtain ⟨run, hd'⟩ := ih move.pending (fun e he => inside e (List.mem_cons_of_mem ev he))
      move.inFrame later
    exact ⟨move.run.trans run, hd'⟩

/-- Settles O41: an accepted command clears the unit registers and sets `D.rem` to `n`; from there
the schedule is one stretch of the frame, by induction over its moves (`runSteps_decFrameRun`).
With `D.active` clear no byte remains, so the stretch is all of `Decode` and no unit is open. -/
theorem decoderFrameOutputUnderAnySchedule : Obligations.DecoderFrameOutputUnderAnySchedule := by
  refine ⟨fun _ _ => rfl, fun _ _ => rfl, fun _ _ _ _ => rfl, fun s t n evs rest hp inside h => ?_⟩
  obtain ⟨m, first, later⟩ := runSteps_succ h
  rw [step_scheduled hp] at first
  obtain ⟨-, -, rfl⟩ := startFrame_cases (e := .dec) first
  obtain ⟨⟨-, bs, out, input, count, produced, decodes⟩, hd⟩ :=
    runSteps_decFrameRun rfl inside (.started n _) later
  refine ⟨bs, out, input, count, by simp [hd.active, Nat.one_le_iff_ne_zero], produced,
    fun more left => ⟨_, decodes more left⟩, fun idle => ?_⟩
  have none : t.dec.rem = 0 := by simpa [frameOpen] using hd.active.symm.trans idle
  have all := decodes [] none.symm
  rw [List.append_nil, decodeFrom, List.append_nil] at all
  exact ⟨all.symm, (none ▸ hd.unit).mode_ne_cont⟩

/-! ## Totality -/

/-- Settles O40: a legal state selects an operation (`decode_byte_ok`), and an enabled turn is one
element step (`engineTurn_dec_ready`). -/
theorem decoderIsTotal : Obligations.DecoderIsTotal := by
  refine ⟨fun _ _ b => decode_byte_ok b, fun s b bs hu ready hi => ?_⟩
  exact ⟨_, engineTurn_dec_ready hu ready hi, congrArg List.tail hi, Nat.sub_add_cancel ready.2.1⟩

/-! ## No look-ahead -/

/-- `s` with the contents of `DEC_IN` replaced. -/
def State.withDecInput (s : State) (bs : List Byte) : State :=
  { s with dec := { s.dec with input := bs } }

/-- Whether the decoder's step is enabled does not depend on what follows its first byte. -/
theorem decReady_of_other_rest {s : State} {b : Byte} {bs : List Byte} (bs' : List Byte)
    (ready : DecReady (s.withDecInput (b :: bs))) : DecReady (s.withDecInput (b :: bs')) := by
  obtain ⟨active, remaining, -, room⟩ := ready
  exact ⟨active, remaining, List.cons_ne_nil b bs', room⟩

/-- Whatever `DEC_IN` holds, `op` is at `s` one and the same element step, or the same refusal. -/
def InputBlind (s : State) (op : State → Answer) : Prop :=
  (∃ u out, ∀ bs, op (s.withDecInput bs) = decElement u out (s.withDecInput bs))
    ∨ ∃ r, ∀ bs, op (s.withDecInput bs) = .refused r

/-- The emission of a completed value reads the unit registers alone. -/
theorem emitValidated_inputBlind (v : Word) (s : State) : InputBlind s (emitValidated v) := by
  cases total : unitLength s.dec.unit.exp with
  | none =>
    exact .inr ⟨.noUnitLength, fun bs => by simp only [emitValidated, State.withDecInput, total]⟩
  | some len =>
    by_cases accepted : valid v len = true
    · exact .inl ⟨.clear .start, [v], fun bs => by
        simp only [emitValidated, State.withDecInput, total, accepted, if_true]⟩
    · exact .inl ⟨.clear .start, [replCp], fun bs => by
        simp only [emitValidated, State.withDecInput, total, accepted, if_false, substituteDec,
          Bool.false_eq_true]⟩

/-- DEC_CONT_LAST reads the parameters and the unit registers alone. -/
theorem execDecContLast_inputBlind (p : BitVec 6) (s : State) :
    InputBlind s (execDecContLast p) := by
  by_cases on : s.cfg.decValidate = true
  · have emits : ∀ bs, execDecContLast p (s.withDecInput bs)
        = emitValidated (accumulate s.dec.unit.acc p) (s.withDecInput bs) := fun _ => if_pos on
    simpa only [InputBlind, emits] using emitValidated_inputBlind _ s
  · exact .inl ⟨.clear .start, [accumulate s.dec.unit.acc p], fun bs => if_neg on⟩

/-- No decoder operation reads `DEC_IN`. -/
theorem exec_decoder_inputBlind {i : Instr} (hf : familyOf i = .decoder) (s : State) :
    InputBlind s (exec i) := by
  cases i with
  | enc1B _ | enc2B _ _ | encSur _ | enc3B _ _ _ | enc4B _ _ _ _ | encOvr _ | encFrame _
  | decFrame _ => cases hf
  | decContLast p => exact execDecContLast_inputBlind p s
  | decAscii _ | decDrain _ => exact .inl ⟨s.dec.unit, _, fun _ => rfl⟩
  | decCont p =>
    exact .inl
      ⟨⟨s.dec.unit.mode, accumulate s.dec.unit.acc p, s.dec.unit.bits + 6#5, s.dec.unit.exp⟩, [],
        fun _ => rfl⟩
  | decLead2 _ | decLead2Trunc _ | decLead3 _ | decLead3Trunc _ | decLead4 _ | decLead4Trunc _
  | decStray _ | decBadlead _ | decBadcont _ => exact .inl ⟨_, _, fun _ => rfl⟩

/-- The operation that a byte selects does not read `DEC_IN`. -/
theorem runFetch_byte_inputBlind (mode : Mode) (rem : Nat) (bits exp : Count5) (b : Byte)
    (s : State) : InputBlind s (runFetch (.byte mode rem bits exp b)) := by
  cases selected : decode (.byte mode rem bits exp b) with
  | ok i =>
    simpa only [InputBlind, runFetch, selected] using
      exec_decoder_inputBlind (familyOf_of_decode_byte selected) s
  | error r => exact .inr ⟨.noOperation r, fun bs => by simp only [runFetch, selected]⟩

/-- An enabled turn on the head `b` is one element step or one refusal, whatever follows `b`. -/
theorem engineTurn_dec_of_head {s : State} (b : Byte)
    (ready : ∀ bs, DecReady (s.withDecInput (b :: bs))) :
    (∃ u out, ∀ bs, engineTurn .dec (s.withDecInput (b :: bs))
        = .next (decAfter u out (s.withDecInput (b :: bs))))
      ∨ ∃ r, ∀ bs, engineTurn .dec (s.withDecInput (b :: bs)) = .refused r := by
  have turn : ∀ bs, engineTurn .dec (s.withDecInput (b :: bs))
      = runFetch (.byte s.dec.unit.mode s.dec.rem s.dec.unit.bits s.dec.unit.exp b)
          (s.withDecInput (b :: bs)) := fun bs => by
    simp only [engineTurn, fetch, fetchDec_ready (ready bs) rfl]
    rfl
  obtain ⟨u, out, element⟩ | ⟨r, stop⟩ :=
    runFetch_byte_inputBlind s.dec.unit.mode s.dec.rem s.dec.unit.bits s.dec.unit.exp b s
  · exact .inl ⟨u, out, fun bs => by rw [turn, element, decElement_ready (ready bs)]⟩
  · exact .inr ⟨r, fun bs => by rw [turn, stop]⟩

/-- Settles O56: an enabled turn is the element step that its first byte fixes
(`engineTurn_dec_of_head`), which takes that byte and no other; any other turn waits. -/
theorem decoderNeverLooksAhead : Obligations.DecoderNeverLooksAhead := by
  intro s t t' b bs bs' h h'
  change engineTurn .dec (s.withDecInput (b :: bs)) = .next t at h
  change engineTurn .dec (s.withDecInput (b :: bs')) = .next t' at h'
  by_cases ready : DecReady (s.withDecInput (b :: bs))
  · obtain ⟨u, out, turn⟩ | ⟨r, turn⟩ :=
      engineTurn_dec_of_head b fun cs => decReady_of_other_rest cs ready
    · cases (turn bs).symm.trans h
      cases (turn bs').symm.trans h'
      exact ⟨rfl, rfl, rfl, rfl, fun _ => ⟨rfl, rfl, Nat.sub_add_cancel ready.2.1⟩,
        fun waits => absurd ready waits⟩
    · cases (turn bs).symm.trans h
  · have waits : ¬ DecReady (s.withDecInput (b :: bs')) := mt (decReady_of_other_rest bs) ready
    cases (engineTurn_dec_waits ready).symm.trans h
    cases (engineTurn_dec_waits waits).symm.trans h'
    exact ⟨rfl, rfl, rfl, rfl, fun enabled => absurd enabled ready, fun _ => ⟨rfl, rfl⟩⟩

/-! ## The element step -/

/-- Settles O39: a scheduled turn is `engineTurn`, which takes the step when it is enabled
(`engineTurn_dec_ready`) and waits where a condition fails. -/
theorem decoderElementStep : Obligations.DecoderElementStep := by
  refine ⟨fun s b bs rest hp active remaining hu hi room => ?_, fun s t rest hp fails h => ?_⟩
  · have ready : DecReady (s.withPending rest) := ⟨active, remaining, by simp [hi], room⟩
    rw [step_scheduled hp, runEvent, engineTurn_dec_ready (s := s.withPending rest) hu ready hi]
    simp only [decAfter, State.withPending_dec, hi, List.tail_cons]
    rfl
  · have waits : ¬ DecReady (s.withPending rest) := by
      rintro ⟨active, -, input, room⟩
      simp only [State.withPending_dec, State.withPending_cfg] at active input room
      obtain idle | empty | full := fails
      · simp [idle] at active
      · exact input empty
      · omega
    rw [step_scheduled hp, runEvent, engineTurn_dec_waits waits] at h
    cases h
    rfl

/-! ## ASCII bytes, and leads whose unit fits in the frame -/

/-- Settles O25: R59's row of `selectionInStart`; the operation is one element step. -/
theorem decAsciiPassesTheByteThrough : Obligations.DecAsciiPassesTheByteThrough := by
  refine ⟨fun b rem bits exp hr hb => ?_, fun _ _ => decElement_ready,
    fun _ => ⟨rfl, rfl, rfl⟩⟩
  obtain ⟨ascii, -⟩ := selectionInStart b rem bits exp hr
  obtain ⟨format, -⟩ := byte_tests b
  obtain ⟨-, -, -, -, field⟩ := payload_masks b
  exact ⟨ascii (format.mp hb), field hb⟩

/-- Settles O26: R59's row of `selectionInStart`; the operation is one element step. -/
theorem decLead2OpensATwoByteUnit : Obligations.DecLead2OpensATwoByteUnit := by
  refine ⟨fun b rem bits exp hr hb => ?_, fun _ _ => decElement_ready, rfl, rfl, fun _ => rfl⟩
  obtain ⟨-, lead2, -⟩ := selectionInStart b rem bits exp (by omega)
  obtain ⟨-, format, -⟩ := byte_tests b
  obtain ⟨field, -⟩ := payload_masks b
  exact ⟨lead2 (format.mp hb) hr, field⟩

/-- Settles O28: R59's row of `selectionInStart`; the operation is one element step. -/
theorem decLead3OpensAThreeByteUnit : Obligations.DecLead3OpensAThreeByteUnit := by
  refine ⟨fun b rem bits exp hr hb => ?_, fun _ _ => decElement_ready, rfl, rfl, rfl, rfl, rfl, rfl,
    fun _ => rfl⟩
  obtain ⟨-, -, -, lead3, -⟩ := selectionInStart b rem bits exp (by omega)
  obtain ⟨-, -, format, -⟩ := byte_tests b
  obtain ⟨-, field, -⟩ := payload_masks b
  exact ⟨lead3 (format.mp hb) hr, field⟩

/-- Settles O30: R59's row of `selectionInStart`; the operation is one element step. -/
theorem decLead4OpensAFourByteUnit : Obligations.DecLead4OpensAFourByteUnit := by
  refine ⟨fun b rem bits exp hr hb => ?_, fun _ _ => decElement_ready, rfl, rfl, rfl, rfl, rfl,
    fun _ => rfl⟩
  obtain ⟨-, -, -, -, -, lead4, -⟩ := selectionInStart b rem bits exp (by omega)
  obtain ⟨-, -, -, format, -⟩ := byte_tests b
  obtain ⟨-, -, field, -⟩ := payload_masks b
  exact ⟨lead4 (format.mp hb) hr, field⟩

/-! ## Truncated leads -/

/-- In `DRAIN` the rest of a frame emits nothing (R97). -/
theorem decodeFrom_drain (v : Bool) (bs : List Byte) :
    decodeFrom v (UnitRegs.clear .drain) bs = [] := by
  induction bs with
  | nil => rfl
  | cons b bs ih => exact ih

/-- A 3-byte lead that the frame cannot complete is rejected, and the rest of the frame is drained,
whatever it is (R89). -/
theorem decodeFrame_lead3_truncated (v : Bool) {l : Byte} {bs : List Byte} (hl : l >>> 4 = 0b1110#8)
    (short : bs.length < 2) : decodeFrame v (l :: bs) = [replCp] := by
  obtain ⟨ascii, lead2, lead3, -⟩ := byte_tests l
  have format := lead3.mp hl
  simp [decodeFrame, decodeFrom, decodeStep, decodeFrom_drain, ascii, lead2, format, hl,
    Nat.not_le.mpr short]

/-- A 4-byte lead that the frame cannot complete is rejected, and the rest of the frame is drained,
whatever it is (R91). -/
theorem decodeFrame_lead4_truncated (v : Bool) {l : Byte} {bs : List Byte}
    (hl : l >>> 3 = 0b11110#8) (short : bs.length < 3) : decodeFrame v (l :: bs) = [replCp] := by
  obtain ⟨ascii, lead2, lead3, lead4, -⟩ := byte_tests l
  have format := lead4.mp hl
  simp [decodeFrame, decodeFrom, decodeStep, decodeFrom_drain, ascii, lead2, lead3, format, hl,
    Nat.not_le.mpr short]

/-- Settles O27: R59's row of `selectionInStart`; the operation is one element step, which takes the
frame's last byte. -/
theorem decLead2TruncRejectsAndDrains : Obligations.DecLead2TruncRejectsAndDrains := by
  refine ⟨fun b bits exp hb => ?_, fun _ _ => decElement_ready, fun p s t ready last h => ?_,
    fun _ => rfl⟩
  · obtain ⟨-, -, trunc2, -⟩ := selectionInStart b 1 bits exp le_rfl
    obtain ⟨-, format, -⟩ := byte_tests b
    exact trunc2 (format.mp hb) rfl
  · cases (decElement_ready ready).symm.trans h
    simp [decAfter, last, frameOpen]

/-- Settles O29: R59's row of `selectionInStart`; the operation is one element step, and a frame
of two bytes drains the second (`decodeFrame_lead3_truncated`). -/
theorem decLead3TruncRejectsAndDrains : Obligations.DecLead3TruncRejectsAndDrains := by
  refine ⟨fun b rem bits exp hr hb => ?_, fun _ _ => decElement_ready,
    fun v l b hl => decodeFrame_lead3_truncated v hl (by simp), fun _ => ⟨rfl, rfl⟩⟩
  obtain ⟨-, -, -, -, trunc3, -⟩ := selectionInStart b rem bits exp (by omega)
  obtain ⟨-, -, format, -⟩ := byte_tests b
  exact trunc3 (format.mp hb) hr

/-- Settles O31: R59's row of `selectionInStart`; the operation is one element step, and a frame
of two or three bytes drains the others (`decodeFrame_lead4_truncated`). -/
theorem decLead4TruncRejectsAndDrains : Obligations.DecLead4TruncRejectsAndDrains := by
  refine ⟨fun b rem bits exp hr hb => ?_, fun _ _ => decElement_ready,
    fun v l b c hl => ⟨decodeFrame_lead4_truncated v hl (by simp),
      decodeFrame_lead4_truncated v hl (by simp)⟩, fun _ => ⟨rfl, rfl⟩⟩
  obtain ⟨-, -, -, -, -, -, trunc4, -⟩ := selectionInStart b rem bits exp (by omega)
  obtain ⟨-, -, -, format, -⟩ := byte_tests b
  exact trunc4 (format.mp hb) hr

/-! ## Rejected bytes -/

/-- The document's test of a byte that is neither ASCII, a lead nor a continuation, as a format. -/
theorem bad_test : ∀ b : Byte, b >>> 3 = 0b11111#8 ↔ formatOf b = .bad := by decide

/-- A byte that begins no unit emits the marker, and the next byte is in `START` (R93). -/
theorem decodeFrame_bad (v : Bool) {b : Byte} (bs : List Byte) (hb : formatOf b = .bad) :
    decodeFrame v (b :: bs) = replCp :: decodeFrame v bs := by
  obtain ⟨ascii, lead2, lead3, lead4, -⟩ := byte_tests b
  simp [decodeFrame, decodeFrom, decodeStep, ascii, lead2, lead3, lead4, hb]

/-- A byte that breaks a unit emits the marker, and the next byte is in `START` (R96). -/
theorem decodeFrom_badcont (v : Bool) {u : UnitRegs} {b : Byte} (bs : List Byte)
    (hm : u.mode = .cont) (hb : b &&& 0xC0#8 ≠ 0x80#8) :
    decodeFrom v u (b :: bs) = replCp :: decodeFrame v bs := by
  simp [decodeFrame, decodeFrom, decodeStep, hm, hb]

/-- Settles O32: R59's row of `selectionInStart`; the operation is one element step. -/
theorem decStrayRejectsOneByte : Obligations.DecStrayRejectsOneByte := by
  refine ⟨fun b rem bits exp hr hb => ?_, fun _ _ => decElement_ready, fun _ => ⟨rfl, rfl⟩⟩
  obtain ⟨-, -, -, -, -, -, -, stray, -⟩ := selectionInStart b rem bits exp hr
  obtain ⟨-, -, -, -, format⟩ := byte_tests b
  exact stray (format.mp hb)

/-- Settles O33: R59's row of `selectionInStart`; the operation is one element step, and the next
byte starts a unit (`decodeFrame_bad`). -/
theorem decBadleadRejectsOneByte : Obligations.DecBadleadRejectsOneByte := by
  refine ⟨fun b rem bits exp hr hb => ?_, fun _ _ => decElement_ready,
    fun v b bs hb => decodeFrame_bad v bs ((bad_test b).mp hb), fun _ => ⟨rfl, rfl⟩⟩
  obtain ⟨-, -, -, -, -, -, -, -, badlead⟩ := selectionInStart b rem bits exp hr
  exact badlead ((bad_test b).mp hb)

/-- Settles O36: R60's row of `selectionInCont`; the operation is one element step, and the byte
is not read again (`decodeFrom_badcont`). -/
theorem decBadcontSwallowsTheByte : Obligations.DecBadcontSwallowsTheByte := by
  refine ⟨fun b rem bits exp hr hb => ?_, fun _ _ => decElement_ready,
    fun v u b bs => decodeFrom_badcont v bs, fun _ => ⟨rfl, rfl, rfl⟩⟩
  obtain ⟨-, -, badcont⟩ := selectionInCont.1 b rem bits exp hr
  obtain ⟨-, -, -, -, format⟩ := byte_tests b
  exact badcont (mt format.mpr hb)

/-! ## Continuation bytes -/

/-- An open unit's accumulator has room for six more bits below the 21 of R41 (R28). -/
theorem UnitInv.acc_lt {u : UnitRegs} {rem : Nat} (hu : UnitInv u rem) (hm : u.mode = .cont) :
    u.acc.toNat < 2 ^ 15 := by
  obtain ⟨counts, acc, -⟩ := hu.2.1 hm
  have bits : u.bits.toNat ≤ 15 := by
    simp [openCounts] at counts
    omega
  exact acc.trans_le (Nat.pow_le_pow_right (by decide) bits)

/-- Settles O34: R60's row of `selectionInCont`, whose sum stays below `D.exp` and so in five
bits; the operation is one element step, and the accumulator's bound keeps every bit
(`toNat_accumulate`). -/
theorem decContAccumulatesSixBits : Obligations.DecContAccumulatesSixBits := by
  refine ⟨fun b rem bits exp hr hb below => ?_, fun _ _ => decElement_ready,
    fun u rem p hu hm => ?_, fun _ => rfl⟩
  · obtain ⟨cont, -⟩ := selectionInCont.1 b rem bits exp hr
    obtain ⟨-, -, -, -, format⟩ := byte_tests b
    obtain ⟨-, -, -, field, -⟩ := payload_masks b
    refine ⟨cont (format.mp hb) below, field, ?_⟩
    have := exp.isLt
    rw [BitVec.toNat_add]
    exact Nat.mod_eq_of_lt (by simp; omega)
  · have acc := hu.acc_lt hm
    exact ⟨acc, toNat_accumulate p (by omega)⟩

/-- Settles O35: R60's row of `selectionInCont`; the operation is one element step
(`exec_decContLast`), and the accumulator's bound leaves 21 bits (`toNat_accumulate`). -/
theorem decContLastEmitsTheCompletedValue : Obligations.DecContLastEmitsTheCompletedValue := by
  refine ⟨fun b rem bits exp hr hb total => ?_, fun p s ready total => ?_,
    fun u rem p hu hm _ => ?_, rfl, rfl, rfl, by decide⟩
  · obtain ⟨-, last, -⟩ := selectionInCont.1 b rem bits exp hr
    obtain ⟨-, -, -, -, format⟩ := byte_tests b
    obtain ⟨-, -, -, field, -⟩ := payload_masks b
    exact ⟨last (format.mp hb) total, field⟩
  · exact (exec_decContLast p s total).trans (decElement_ready ready)
  · have acc := hu.acc_lt hm
    have field := p.isLt
    calc (accumulate u.acc p).toNat
      _ = u.acc.toNat * 2 ^ 6 + p.toNat := toNat_accumulate p (by omega)
      _ < 2 ^ 21 := by omega

end Sys2Proof.Machine
end

section
/-! PROOFS. The family 42_substitution.md: the validator inside DEC_CONT_LAST and what it changes, the
marker, the encoder's output as well-formed units, and what decoding gives back of it. -/

namespace Sys2Proof.Machine

/-! ## The validator -/

/-- `VALID` by its three tests (R110). -/
theorem valid_iff (w : Word) (len : Nat) : valid w len = true
    ↔ minValue len ≤ w.toNat ∧ ¬ isSurrogate w.toNat ∧ w.toNat ≤ 0x10FFFF := by
  simp only [valid, Bool.and_eq_true, Bool.not_eq_true', decide_eq_true_eq, decide_eq_false_iff_not,
    and_assoc]

/-- The unit length that `completedWord` reads off an expected total, one outside R26 included. -/
def assumedLength (exp : Count5) : Nat := if exp = 11#5 then 2 else if exp = 16#5 then 3 else 4

/-- The assumed length is one of R26's three. -/
theorem assumedLength_cases (exp : Count5) :
    assumedLength exp = 2 ∨ assumedLength exp = 3 ∨ assumedLength exp = 4 := by
  unfold assumedLength
  split_ifs <;> simp

/-- The assumed length of a legal total is its unit length (R26). -/
theorem unitLength_of_total {exp : Count5} (h : exp = 11#5 ∨ exp = 16#5 ∨ exp = 21#5) :
    unitLength exp = some (assumedLength exp) := by
  obtain rfl | rfl | rfl := h <;> rfl

/-- The word of a completed unit, by its assumed length. -/
theorem completedWord_eq (validate : Bool) (exp : Count5) (w : Word) :
    completedWord validate exp w
      = if validate && !valid w (assumedLength exp) then replCp else w := rfl

/-- With either setting, a value that passes `VALID` at its own length is emitted. -/
theorem completedWord_of_valid (validate : Bool) {exp : Count5} {w : Word}
    (h : valid w (assumedLength exp) = true) : completedWord validate exp w = w := by
  simp [completedWord_eq, h]

/-- With the validator on, a value that fails `VALID` at its own length is replaced. -/
theorem completedWord_of_invalid {exp : Count5} {w : Word}
    (h : valid w (assumedLength exp) = false) : completedWord true exp w = replCp := by
  simp [completedWord_eq, h]

/-- Settles O45: a legal total makes the operation one element step that emits `completedWord`
(`exec_decContLast`), which `VALID`'s tests decide; with the validator off the value is emitted. -/
theorem validatorReplacesInvalidUnits : Obligations.ValidatorReplacesInvalidUnits := by
  refine ⟨fun p s v min ready on hv totals => ?_, fun p s ready off =>
    (if_neg (by simp [off])).trans (decElement_ready ready)⟩
  obtain ⟨total, hmin⟩ : (s.dec.unit.exp = 11#5 ∨ s.dec.unit.exp = 16#5 ∨ s.dec.unit.exp = 21#5)
      ∧ minValue (assumedLength s.dec.unit.exp) = min := by
    obtain ⟨total, rfl⟩ | ⟨total, rfl⟩ | ⟨total, rfl⟩ := totals <;> rw [total] <;>
      exact ⟨by decide, rfl⟩
  have tests := valid_iff v (assumedLength s.dec.unit.exp)
  rw [hmin] at tests
  rw [exec_decContLast p s total, decElement_ready ready, on, ← hv]
  refine ⟨fun accepted => ?_, fun rejected => ?_⟩
  · rw [completedWord_of_valid true (tests.mpr accepted)]
  · rw [completedWord_of_invalid (Bool.eq_false_iff.mpr (mt tests.mp rejected))]
    rfl

/-! ## What the validator changes -/

/-- A step does not depend on the validator, unless it completes a unit. -/
theorem decodeStep_validate_cases (u : UnitRegs) (rem : Nat) (b : Byte) :
    decodeStep true u rem b = decodeStep false u rem b
      ∨ (u.mode = .cont ∧ b &&& 0xC0#8 = 0x80#8 ∧ ¬ u.bits.toNat + 6 < u.exp.toNat
        ∧ ∃ w : Word, ∀ validate,
            decodeStep validate u rem b = (.clear .start, [completedWord validate u.exp w])) := by
  cases hm : u.mode with
  | start | drain =>
    left
    simp only [decodeStep, hm]
  | cont =>
    simp only [decodeStep, hm]
    by_cases isCont : b &&& 0xC0#8 = 0x80#8
    · by_cases more : u.bits.toNat + 6 < u.exp.toNat
      · simp [isCont, more]
      · exact .inr ⟨trivial, isCont, more, _, fun _ => by rw [if_pos isCont, if_neg more]⟩
    · simp [isCont]

/-- A word emitted with the validator is the one emitted without it, or U+FFFD in place of one that
fails `VALID` at some unit length. -/
def SameOrReplaced (t f : Word) : Prop :=
  t = f ∨ (t = 0xFFFD#32 ∧ (valid f 2 = false ∨ valid f 3 = false ∨ valid f 4 = false))

/-- The validator leaves the value of a completed unit or replaces it. -/
theorem completedWord_sameOrReplaced (exp : Count5) (w : Word) :
    SameOrReplaced (completedWord true exp w) (completedWord false exp w) := by
  cases test : valid w (assumedLength exp) with
  | true => exact .inl (completedWord_of_valid true test)
  | false =>
    refine .inr ⟨completedWord_of_invalid test, ?_⟩
    obtain len | len | len := assumedLength_cases exp <;> rw [len] at test
    · exact .inl test
    · exact .inr (.inl test)
    · exact .inr (.inr test)

/-- A step leaves the same registers with either setting. -/
theorem decodeStep_validate_regs (u : UnitRegs) (rem : Nat) (b : Byte) :
    (decodeStep true u rem b).1 = (decodeStep false u rem b).1 := by
  obtain same | ⟨-, -, -, w, completes⟩ := decodeStep_validate_cases u rem b
  · rw [same]
  · rw [completes, completes]

/-- A step emits the same number of words with either setting, each the same or replaced. -/
theorem decodeStep_validate_words (u : UnitRegs) (rem : Nat) (b : Byte) :
    List.Forall₂ SameOrReplaced (decodeStep true u rem b).2 (decodeStep false u rem b).2 := by
  obtain same | ⟨-, -, -, w, completes⟩ := decodeStep_validate_cases u rem b
  · rw [same]
    exact List.forall₂_same.mpr fun _ _ => .inl rfl
  · rw [completes, completes]
    exact .cons (completedWord_sameOrReplaced _ w) .nil

/-- The bytes of a frame, from any registers, give the same number of words with either setting, each
the same or replaced. -/
theorem decodeFrom_validate_words (u : UnitRegs) (bs : List Byte) :
    List.Forall₂ SameOrReplaced (decodeFrom true u bs) (decodeFrom false u bs) := by
  induction bs generalizing u with
  | nil => exact .nil
  | cons b bs ih =>
    simp only [decodeFrom, decodeStep_validate_regs]
    exact List.rel_append (decodeStep_validate_words u _ b) (ih _)

/-- A legal step whose emission depends on the validator completes a unit that fails `VALID` at its
own length. -/
theorem decodeStep_validate_differs {u : UnitRegs} {rem : Nat} {b : Byte} (hu : UnitInv u rem)
    (differs : (decodeStep true u rem b).2 ≠ (decodeStep false u rem b).2) :
    u.mode = .cont ∧ b &&& 0xC0#8 = 0x80#8 ∧ u.bits.toNat + 6 = u.exp.toNat
      ∧ ∃ (w : Word) (len : Nat), unitLength u.exp = some len ∧ valid w len = false
        ∧ (decodeStep false u rem b).2 = [w] ∧ (decodeStep true u rem b).2 = [0xFFFD#32] := by
  obtain same | ⟨hm, isCont, full, w, completes⟩ := decodeStep_validate_cases u rem b
  · exact absurd (congrArg Prod.snd same) differs
  · simp only [completes] at differs ⊢
    have invalid : valid w (assumedLength u.exp) = false := by
      refine Bool.eq_false_iff.mpr fun accepted => differs ?_
      rw [completedWord_of_valid true accepted, completedWord_of_valid false accepted]
    exact ⟨hm, isCont, (hu.counter hm).resolve_left full, w, _, unitLength_of_total (hu.total hm),
      invalid, rfl, congrArg (fun x => [x]) (completedWord_of_invalid invalid)⟩

/-- `s` with `DEC_VALIDATE` set. -/
def State.withValidate (s : State) (validate : Bool) : State :=
  { s with cfg := { s.cfg with decValidate := validate } }

/-- Two states agree in the encoder and in all of the decoder but the words it has emitted, of which
there are as many. -/
def SameButWords (t t' : State) : Prop :=
  t.dec.unit = t'.dec.unit ∧ t.dec.rem = t'.dec.rem ∧ t.dec.active = t'.dec.active
    ∧ t.dec.input = t'.dec.input ∧ t.dec.output.length = t'.dec.output.length ∧ t.enc = t'.enc

/-- Decoder element steps that leave the same registers and emit as many words. -/
theorem decElement_sameButWords {u : UnitRegs} {out out' : List Word} {s t t' : State} {v v' : Bool}
    (h : decElement u out (s.withValidate v) = .next t)
    (h' : decElement u out' (s.withValidate v') = .next t') (lengths : out.length = out'.length) :
    SameButWords t t' := by
  by_cases ready : DecReady s
  · cases (decElement_ready (s := s.withValidate v) ready).symm.trans h
    cases (decElement_ready (s := s.withValidate v') ready).symm.trans h'
    exact ⟨rfl, rfl, rfl, rfl, by simp [decAfter, State.withValidate, lengths], rfl⟩
  · cases (decElement_waits (s := s.withValidate v) ready).symm.trans h
    cases (decElement_waits (s := s.withValidate v') ready).symm.trans h'
    exact ⟨rfl, rfl, rfl, rfl, rfl, rfl⟩

/-- An encoder element step does not depend on the validator. -/
theorem encElement_sameButWords {g : List Byte} {s t t' : State} {v v' : Bool}
    (h : encElement g (s.withValidate v) = .next t)
    (h' : encElement g (s.withValidate v') = .next t') : SameButWords t t' := by
  by_cases ready : EncReady s
  · cases (encElement_ready (s := s.withValidate v) ready).symm.trans h
    cases (encElement_ready (s := s.withValidate v') ready).symm.trans h'
    exact ⟨rfl, rfl, rfl, rfl, rfl, rfl⟩
  · cases (encElement_waits (s := s.withValidate v) ready).symm.trans h
    cases (encElement_waits (s := s.withValidate v') ready).symm.trans h'
    exact ⟨rfl, rfl, rfl, rfl, rfl, rfl⟩

/-- DEC_CONT_LAST that is not refused is one element step that emits one word. -/
theorem execDecContLast_one_word {p : BitVec 6} {s t : State} (h : execDecContLast p s = .next t) :
    ∃ w, decElement (.clear .start) [w] s = .next t := by
  unfold execDecContLast emitValidated at h
  split at h
  · split at h
    · cases h
    · split at h <;> exact ⟨_, h⟩
  · exact ⟨_, h⟩

/-- No operation does anything with the validator but choose the word of a completed unit. -/
theorem exec_sameButWords {i : Instr} {s t t' : State} {v v' : Bool}
    (h : exec i (s.withValidate v) = .next t) (h' : exec i (s.withValidate v') = .next t') :
    SameButWords t t' := by
  cases i with
  | enc1B _ | enc2B _ _ | encSur _ | enc3B _ _ _ | enc4B _ _ _ _ | encOvr _ =>
    exact encElement_sameButWords h h'
  | encFrame n =>
    obtain ⟨-, -, rfl⟩ := startFrame_cases (e := .enc) h
    obtain ⟨-, -, rfl⟩ := startFrame_cases (e := .enc) h'
    exact ⟨rfl, rfl, rfl, rfl, rfl, rfl⟩
  | decFrame n =>
    obtain ⟨-, -, rfl⟩ := startFrame_cases (e := .dec) h
    obtain ⟨-, -, rfl⟩ := startFrame_cases (e := .dec) h'
    exact ⟨rfl, rfl, rfl, rfl, rfl, rfl⟩
  | decContLast p =>
    obtain ⟨w, one⟩ := execDecContLast_one_word h
    obtain ⟨w', one'⟩ := execDecContLast_one_word h'
    exact decElement_sameButWords one one' rfl
  | decAscii _ | decLead2 _ | decLead2Trunc _ | decLead3 _ | decLead3Trunc _ | decLead4 _
  | decLead4Trunc _ | decStray _ | decBadlead _ | decCont _ | decBadcont _ | decDrain _ =>
    exact decElement_sameButWords h h' rfl

/-- Settles O47: only a step that completes a unit looks at the validator
(`decodeStep_validate_cases`), and a frame's words follow by induction over its bytes. -/
theorem validatorChangesOnlyTheEmittedValue : Obligations.ValidatorChangesOnlyTheEmittedValue := by
  refine ⟨decodeStep_validate_regs, fun _ _ _ => decodeStep_validate_differs, fun bs => ?_,
    fun _ _ _ _ => exec_sameButWords⟩
  have words := decodeFrom_validate_words (.clear .start) bs
  exact ⟨words.length_eq, words⟩

/-! ## Well-formed units -/

/-- `WellFormedUnit g w`: the bytes `g` are one unit, whose value `w` passes `VALID` at the unit's
length (R110, R116). -/
inductive WellFormedUnit : List Byte → Word → Prop
  | one (p : BitVec 7) : WellFormedUnit (group1 p) (payload p)
  | two {l : BitVec 5} {c : BitVec 6} (passes : valid (accumulate (payload l) c) 2 = true) :
      WellFormedUnit (group2 l c) (accumulate (payload l) c)
  | three {l : BitVec 4} {c d : BitVec 6}
      (passes : valid (accumulate (accumulate (payload l) c) d) 3 = true) :
      WellFormedUnit (group3 l c d) (accumulate (accumulate (payload l) c) d)
  | four {l : BitVec 3} {c d e : BitVec 6}
      (passes : valid (accumulate (accumulate (accumulate (payload l) c) d) e) 4 = true) :
      WellFormedUnit (group4 l c d e) (accumulate (accumulate (accumulate (payload l) c) d) e)

/-- The marker is a well-formed unit (R114). -/
theorem wellFormedUnit_replBytes : WellFormedUnit replBytes replCp :=
  .three (l := 0xF#4) (c := 0x3F#6) (d := 0x3D#6) (by decide)

/-! ## Every encoded word is a well-formed unit -/

/-- A word of one byte is its payload field. -/
theorem payload_fields {w : Word} (h : w.toNat < 0x80) : payload (w.extractLsb' 0 7) = w := by
  apply BitVec.eq_of_toNat_eq
  rw [toNat_payload _ (by decide), BitVec.extractLsb'_toNat, Nat.shiftRight_eq_div_pow]
  omega

/-- The two fields of a word of two bytes accumulate to it. -/
theorem accumulate_fields2 {w : Word} (h : w.toNat < 0x800) :
    accumulate (payload (w.extractLsb' 6 5)) (w.extractLsb' 0 6) = w := by
  apply BitVec.eq_of_toNat_eq
  rw [toNat_accumulate _ (toNat_payload_lt _ (by decide)), toNat_payload _ (by decide)]
  simp only [BitVec.extractLsb'_toNat, Nat.shiftRight_eq_div_pow]
  omega

/-- The three fields of a word of three bytes accumulate to it. -/
theorem accumulate_fields3 {w : Word} (h : w.toNat < 0x10000) :
    accumulate (accumulate (payload (w.extractLsb' 12 4)) (w.extractLsb' 6 6)) (w.extractLsb' 0 6)
      = w := by
  apply BitVec.eq_of_toNat_eq
  rw [toNat_accumulate_two _ _ (toNat_payload_lt _ (by decide)), toNat_payload _ (by decide)]
  simp only [BitVec.extractLsb'_toNat, Nat.shiftRight_eq_div_pow]
  omega

/-- The four fields of a word of four bytes accumulate to it. -/
theorem accumulate_fields4 {w : Word} (h : w.toNat < 0x200000) :
    accumulate (accumulate (accumulate (payload (w.extractLsb' 18 3)) (w.extractLsb' 12 6))
      (w.extractLsb' 6 6)) (w.extractLsb' 0 6) = w := by
  apply BitVec.eq_of_toNat_eq
  rw [toNat_accumulate_three _ _ _ (toNat_payload_lt _ (by decide)), toNat_payload _ (by decide)]
  simp only [BitVec.extractLsb'_toNat, Nat.shiftRight_eq_div_pow]
  omega

/-- The group of a word of at most 7 bits (R74). -/
theorem encodeCP_group1 {w : Word} (h : w.toNat < 0x80) :
    encodeCP w = group1 (w.extractLsb' 0 7) := by
  have bits : bitw w ≤ 7 := (bitw_le_iff w 7).mpr h
  rw [encodeCP, if_pos bits, group1, List.cons.injEq]
  refine ⟨BitVec.eq_of_toNat_eq ?_, rfl⟩
  simp
  omega

/-- The group of a word of 8 to 11 bits (R75). -/
theorem encodeCP_group2 {w : Word} (least : 0x80 ≤ w.toNat) (h : w.toNat < 0x800) :
    encodeCP w = group2 (w.extractLsb' 6 5) (w.extractLsb' 0 6) := by
  obtain ⟨h7, h11, -, -⟩ := bitw_tests w
  rw [encodeCP, if_neg (by omega), if_pos (by omega)]
  simp only [group2, ← fieldByte_eq_marked]
  rfl

/-- The group of a word of 12 to 16 bits that is no surrogate (R77). -/
theorem encodeCP_group3 {w : Word} (least : 0x800 ≤ w.toNat) (h : w.toNat < 0x10000)
    (hs : ¬ isSurrogate w.toNat) :
    encodeCP w = group3 (w.extractLsb' 12 4) (w.extractLsb' 6 6) (w.extractLsb' 0 6) := by
  obtain ⟨h7, h11, h16, -⟩ := bitw_tests w
  rw [encodeCP, if_neg (by omega), if_neg (by omega), if_pos (by omega), if_neg hs]
  simp only [group3, ← fieldByte_eq_marked]
  rfl

/-- The group of a word of 17 bits or more, up to 0x10FFFF (R78). -/
theorem encodeCP_group4 {w : Word} (least : 0x10000 ≤ w.toNat) (h : w.toNat ≤ 0x10FFFF) :
    encodeCP w = group4 (w.extractLsb' 18 3) (w.extractLsb' 12 6) (w.extractLsb' 6 6)
      (w.extractLsb' 0 6) := by
  obtain ⟨h7, h11, h16, h21⟩ := bitw_tests w
  rw [encodeCP, if_neg (by omega), if_neg (by omega), if_neg (by omega), if_pos (by omega)]
  simp only [group4, ← fieldByte_eq_marked]
  rfl

/-- A legal code point is encoded as a well-formed unit of its own value. -/
theorem wellFormedUnit_of_legal {w : Word} (legal : LegalCodePoint w) :
    WellFormedUnit (encodeCP w) w := by
  obtain ⟨high, hs⟩ := legal
  by_cases h7 : w.toNat < 0x80
  · have unit := WellFormedUnit.one (w.extractLsb' 0 7)
    rwa [← encodeCP_group1 h7, payload_fields h7] at unit
  by_cases h11 : w.toNat < 0x800
  · have value := accumulate_fields2 h11
    have passes : valid w 2 = true := (valid_iff w 2).mpr ⟨Nat.not_lt.mp h7, hs, high⟩
    have unit := WellFormedUnit.two (value ▸ passes)
    rwa [← encodeCP_group2 (Nat.not_lt.mp h7) h11, value] at unit
  by_cases h16 : w.toNat < 0x10000
  · have value := accumulate_fields3 h16
    have passes : valid w 3 = true := (valid_iff w 3).mpr ⟨Nat.not_lt.mp h11, hs, high⟩
    have unit := WellFormedUnit.three (value ▸ passes)
    rwa [← encodeCP_group3 (Nat.not_lt.mp h11) h16 hs, value] at unit
  · have value := accumulate_fields4 (w := w) (by omega)
    have passes : valid w 4 = true := (valid_iff w 4).mpr ⟨Nat.not_lt.mp h16, hs, high⟩
    have unit := WellFormedUnit.four (value ▸ passes)
    rwa [← encodeCP_group4 (Nat.not_lt.mp h16) high, value] at unit

/-- Any other word is encoded as the marker (R76, R79). -/
theorem encodeCP_of_illegal {w : Word} (illegal : ¬ LegalCodePoint w) : encodeCP w = replBytes := by
  obtain ⟨h7, h11, h16, -⟩ := bitw_tests w
  simp only [LegalCodePoint, isSurrogate] at illegal
  rw [encodeCP, if_neg (by omega), if_neg (by omega)]
  by_cases h : w.toNat < 0x10000
  · rw [if_pos (h16.mpr h), if_pos (show isSurrogate w.toNat by simp only [isSurrogate]; omega)]
  · rw [if_neg (by omega), if_neg (by omega)]

/-- `EncodeCP` of any word is a well-formed unit of the value that R115's `f` gives the word. -/
theorem wellFormedUnit_encodeCP (w : Word) : WellFormedUnit (encodeCP w) (legalised w) := by
  by_cases legal : LegalCodePoint w
  · rw [legalised, if_pos legal]
    exact wellFormedUnit_of_legal legal
  · rw [legalised, if_neg legal, encodeCP_of_illegal legal]
    exact wellFormedUnit_replBytes

/-! ## Decoding a well-formed unit -/

/-- A field of seven bits makes a byte of the ASCII format that carries the field. -/
theorem ascii_field : ∀ p : BitVec 7, formatOf (p.setWidth 8) = .ascii
    ∧ (p.setWidth 8).setWidth 32 = payload p := by
  decide

/-- An ASCII byte in `START` leaves the registers and emits its field (R85). -/
theorem decodeStep_ascii (validate : Bool) (rem : Nat) (p : BitVec 7) :
    decodeStep validate (.clear .start) rem (p.setWidth 8) = (.clear .start, [payload p]) := by
  obtain ⟨format, field⟩ := ascii_field p
  obtain ⟨ascii, -⟩ := byte_tests (p.setWidth 8)
  simp [-BitVec.setWidth_setWidth, decodeStep, ascii, format, field]

/-- A 1-byte unit at the head of a frame. -/
theorem decodeFrame_group1 (v : Bool) (p : BitVec 7) (bs : List Byte) :
    decodeFrame v (group1 p ++ bs) = payload p :: decodeFrame v bs := by
  simp [decodeFrame, decodeFrom, group1, decodeStep_ascii]

/-- A well-formed unit at the head of a frame gives its value, with either setting, since the value
passes `VALID`. -/
theorem WellFormedUnit.decodeFrame_append {g : List Byte} {w : Word} (unit : WellFormedUnit g w)
    (v : Bool) (bs : List Byte) : decodeFrame v (g ++ bs) = w :: decodeFrame v bs := by
  cases unit with
  | one p => exact decodeFrame_group1 v p bs
  | two passes => rw [decodeFrame_group2, completedWord_of_valid v passes]
  | three passes => rw [decodeFrame_group3, completedWord_of_valid v passes]
  | four passes => rw [decodeFrame_group4, completedWord_of_valid v passes]

/-- A well-formed unit alone gives its value. -/
theorem WellFormedUnit.decodeFrame_alone {g : List Byte} {w : Word} (unit : WellFormedUnit g w)
    (v : Bool) : decodeFrame v g = [w] := by
  simpa [decodeFrame, decodeFrom] using unit.decodeFrame_append v []

/-- Settles O48: the marker is a well-formed unit of U+FFFD (`wellFormedUnit_replBytes`). -/
theorem markerPassesThroughUnchanged : Obligations.MarkerPassesThroughUnchanged :=
  ⟨rfl, rfl, by decide, wellFormedUnit_replBytes.decodeFrame_alone⟩

/-- Decoding an encoded frame gives R115's `f` of each word, unit by unit. -/
theorem decodeFrame_encodeFrame (v : Bool) (ws : List Word) :
    decodeFrame v (encodeFrame ws) = ws.map legalised := by
  induction ws with
  | nil => rfl
  | cons w ws ih =>
    rw [encodeFrame, (wellFormedUnit_encodeCP w).decodeFrame_append, ih, List.map_cons]

/-! ## No byte of a well-formed unit is rejected, truncated or drained -/

/-- The byte `b` selects an accepting operation, and its step leaves the registers `u'`. -/
def Accepts (validate : Bool) (u : UnitRegs) (rem : Nat) (b : Byte) (u' : UnitRegs) : Prop :=
  (∃ i, decode (.byte u.mode rem u.bits u.exp b) = .ok i ∧ isAccepting i = true)
    ∧ (decodeStep validate u rem b).1 = u'

/-- Every byte of a frame, from the registers `u`, selects an accepting operation. -/
def AllAccepted (validate : Bool) (u : UnitRegs) (bs : List Byte) : Prop :=
  ∀ o ∈ frameOps validate u bs, ∃ i, o = .ok i ∧ isAccepting i = true

/-- An accepted byte, and then the rest of the frame from the registers it leaves. -/
theorem AllAccepted.cons {v : Bool} {u u' : UnitRegs} {b : Byte} {bs : List Byte}
    (first : Accepts v u (bs.length + 1) b u') (rest : AllAccepted v u' bs) :
    AllAccepted v u (b :: bs) := by
  obtain ⟨accepted, rfl⟩ := first
  exact List.forall_mem_cons.mpr ⟨accepted, rest⟩

/-- An ASCII byte in `START` is accepted. -/
theorem accepts_ascii (v : Bool) {rem : Nat} (p : BitVec 7) (hr : 1 ≤ rem) :
    Accepts v (.clear .start) rem (p.setWidth 8) (.clear .start) := by
  obtain ⟨format, -⟩ := ascii_field p
  obtain ⟨ascii, -⟩ := selectionInStart (p.setWidth 8) rem 0#5 0#5 hr
  exact ⟨⟨_, ascii format, rfl⟩, congrArg Prod.fst (decodeStep_ascii v rem p)⟩

/-- A 2-byte lead whose unit fits in the frame is accepted. -/
theorem accepts_lead2 (v : Bool) {rem : Nat} (l : BitVec 5) (fits : 2 ≤ rem) :
    Accepts v (.clear .start) rem (marked 0xC0#8 l) ⟨.cont, payload l, 5#5, 11#5⟩ := by
  obtain ⟨format, field⟩ := lead2_field l
  obtain ⟨ascii, lead2, -⟩ := byte_tests (marked 0xC0#8 l)
  obtain ⟨-, row, -⟩ := selectionInStart (marked 0xC0#8 l) rem 0#5 0#5 (by omega)
  exact ⟨⟨_, row format fits, rfl⟩, by simp [decodeStep, ascii, lead2, format, field, fits]⟩

/-- A 3-byte lead whose unit fits in the frame is accepted. -/
theorem accepts_lead3 (v : Bool) {rem : Nat} (l : BitVec 4) (fits : 3 ≤ rem) :
    Accepts v (.clear .start) rem (marked 0xE0#8 l) ⟨.cont, payload l, 4#5, 16#5⟩ := by
  obtain ⟨format, field⟩ := lead3_field l
  obtain ⟨ascii, lead2, lead3, -⟩ := byte_tests (marked 0xE0#8 l)
  obtain ⟨-, -, -, row, -⟩ := selectionInStart (marked 0xE0#8 l) rem 0#5 0#5 (by omega)
  exact ⟨⟨_, row format fits, rfl⟩,
    by simp [decodeStep, ascii, lead2, lead3, format, field, fits]⟩

/-- A 4-byte lead whose unit fits in the frame is accepted. -/
theorem accepts_lead4 (v : Bool) {rem : Nat} (l : BitVec 3) (fits : 4 ≤ rem) :
    Accepts v (.clear .start) rem (marked 0xF0#8 l) ⟨.cont, payload l, 3#5, 21#5⟩ := by
  obtain ⟨format, field⟩ := lead4_field l
  obtain ⟨ascii, lead2, lead3, lead4, -⟩ := byte_tests (marked 0xF0#8 l)
  obtain ⟨-, -, -, -, -, row, -⟩ := selectionInStart (marked 0xF0#8 l) rem 0#5 0#5 (by omega)
  exact ⟨⟨_, row format fits, rfl⟩,
    by simp [decodeStep, ascii, lead2, lead3, lead4, format, field, fits]⟩

/-- A continuation byte below the expected total is accepted. -/
theorem accepts_cont (v : Bool) {rem : Nat} {acc : Word} {bits exp : Count5} (c : BitVec 6)
    (hr : 1 ≤ rem) (below : bits.toNat + 6 < exp.toNat) :
    Accepts v ⟨.cont, acc, bits, exp⟩ rem (marked 0x80#8 c)
      ⟨.cont, accumulate acc c, bits + 6#5, exp⟩ := by
  obtain ⟨format, field⟩ := cont_field c
  obtain ⟨-, -, -, -, cont⟩ := byte_tests (marked 0x80#8 c)
  obtain ⟨row, -⟩ := selectionInCont.1 (marked 0x80#8 c) rem bits exp hr
  exact ⟨⟨_, row format below, rfl⟩,
    by simp [decodeStep, accumulate, cont, format, field, below]⟩

/-- A continuation byte at the expected total is accepted. -/
theorem accepts_contLast (v : Bool) {rem : Nat} {acc : Word} {bits exp : Count5} (c : BitVec 6)
    (hr : 1 ≤ rem) (total : bits.toNat + 6 = exp.toNat) :
    Accepts v ⟨.cont, acc, bits, exp⟩ rem (marked 0x80#8 c) (.clear .start) := by
  obtain ⟨format, -⟩ := cont_field c
  obtain ⟨-, -, -, -, cont⟩ := byte_tests (marked 0x80#8 c)
  obtain ⟨-, row, -⟩ := selectionInCont.1 (marked 0x80#8 c) rem bits exp hr
  exact ⟨⟨_, row format total, rfl⟩, by simp [decodeStep, cont, format, total]⟩

/-- All bytes of a well-formed unit are accepted, and the next byte is in `START`. -/
theorem WellFormedUnit.allAccepted_append {g : List Byte} {w : Word} (unit : WellFormedUnit g w)
    {v : Bool} {bs : List Byte} (rest : AllAccepted v (.clear .start) bs) :
    AllAccepted v (.clear .start) (g ++ bs) := by
  cases unit with
  | one p => exact .cons (accepts_ascii v p (by simp)) rest
  | two _ =>
    exact .cons (accepts_lead2 v _ (by simp)) (.cons (accepts_contLast v _ (by simp) rfl) rest)
  | three _ =>
    exact .cons (accepts_lead3 v _ (by simp)) (.cons (accepts_cont v _ (by simp) (by decide))
      (.cons (accepts_contLast v _ (by simp) rfl) rest))
  | four _ =>
    exact .cons (accepts_lead4 v _ (by simp)) (.cons (accepts_cont v _ (by simp) (by decide))
      (.cons (accepts_cont v _ (by simp) (by decide))
        (.cons (accepts_contLast v _ (by simp) rfl) rest)))

/-- All bytes of an encoded frame are accepted. -/
theorem allAccepted_encodeFrame (v : Bool) (ws : List Word) :
    AllAccepted v (.clear .start) (encodeFrame ws) := by
  induction ws with
  | nil => exact List.forall_mem_nil _
  | cons w ws ih => exact (wellFormedUnit_encodeCP w).allAccepted_append ih

/-- Settles O49: each word is encoded as a well-formed unit (`wellFormedUnit_encodeCP`), which the
decoder takes in byte by byte and gives back as its value, by induction over the frame's words. -/
theorem decodeOfEncodedFrameIsTheLegalisedFrame :
    Obligations.DecodeOfEncodedFrameIsTheLegalisedFrame := by
  refine ⟨decodeFrame_encodeFrame, fun v c high hs => ?_, fun v ws => allAccepted_encodeFrame v ws⟩
  rw [decodeFrame_encodeFrame, List.map_singleton, legalised, if_pos ⟨high, hs⟩]

/-! ## The encoder's output as units -/

/-- `Encode` joins the groups of its words (R80). -/
theorem encodeFrame_eq_flatten (ws : List Word) :
    encodeFrame ws = (ws.map encodeCP).flatten := by
  induction ws with
  | nil => rfl
  | cons w ws ih => rw [encodeFrame, ih, List.map_cons, List.flatten_cons]

/-- A field with a 3-byte lead's marker is a lead of 0xE0 to 0xEF. -/
theorem lead3_range : ∀ l : BitVec 4,
    0xE0 ≤ (marked 0xE0#8 l).toNat ∧ (marked 0xE0#8 l).toNat ≤ 0xEF := by
  decide

/-- A value of two fields that passes `VALID` at length 2 has a lead field of 2 or more. -/
theorem two_le_lead2_of_valid {l : BitVec 5} {c : BitVec 6}
    (passes : valid (accumulate (payload l) c) 2 = true) : 2 ≤ l.toNat := by
  obtain ⟨least, -⟩ := (valid_iff _ _).mp passes
  rw [toNat_accumulate c (toNat_payload_lt l (by decide)), toNat_payload l (by decide)] at least
  have field := c.isLt
  simp only [minValue] at least
  omega

/-- A value of four fields that passes `VALID` has a lead field of 4 or less. -/
theorem lead4_le_four_of_valid {l : BitVec 3} {c d e : BitVec 6}
    (passes : valid (accumulate (accumulate (accumulate (payload l) c) d) e) 4 = true) :
    l.toNat ≤ 4 := by
  obtain ⟨-, -, greatest⟩ := (valid_iff _ _).mp passes
  rw [toNat_accumulate_three c d e (toNat_payload_lt l (by decide)),
    toNat_payload l (by decide)] at greatest
  omega

/-- A lead of 0xC2 to 0xF4, with the continuation bytes its format declares and a value that passes
`VALID` (R116). -/
def IsMultibyteUnit (u : List Byte) : Prop :=
  ∃ (l : Byte) (cs : List Byte) (len : Nat) (v : Word),
    u = l :: cs ∧ 0xC2 ≤ l.toNat ∧ l.toNat ≤ 0xF4 ∧ unitLengthOf (formatOf l) = some len
    ∧ cs.length + 1 = len ∧ (∀ c ∈ cs, formatOf c = .cont)
    ∧ decodeFrame false u = [v] ∧ valid v len = true

/-- A well-formed unit is one byte below 0x80 or a lead with its continuation bytes. -/
theorem WellFormedUnit.bytes {g : List Byte} {w : Word} (unit : WellFormedUnit g w) :
    (∃ b : Byte, g = [b] ∧ b.toNat ≤ 0x7F) ∨ IsMultibyteUnit g := by
  have value := unit.decodeFrame_alone false
  have cont : ∀ c, formatOf (marked 0x80#8 c) = .cont := fun c => (cont_field c).1
  cases unit with
  | one p =>
    refine .inl ⟨p.setWidth 8, rfl, ?_⟩
    rw [BitVec.toNat_setWidth_of_le (by decide)]
    exact Nat.le_of_lt_succ p.isLt
  | two passes =>
    obtain ⟨low, high⟩ := lead2_range _ (two_le_lead2_of_valid passes)
    exact .inr ⟨_, _, 2, _, rfl, low, high.trans (by decide), by rw [(lead2_field _).1]; rfl, rfl,
      by simp [cont], value, passes⟩
  | three passes =>
    obtain ⟨low, high⟩ := lead3_range _
    exact .inr ⟨_, _, 3, _, rfl, le_trans (by decide) low, high.trans (by decide),
      by rw [(lead3_field _).1]; rfl, rfl, by simp [cont], value, passes⟩
  | four passes =>
    obtain ⟨low, high⟩ := lead4_range _ (lead4_le_four_of_valid passes)
    exact .inr ⟨_, _, 4, _, rfl, le_trans (by decide) low, high,
      by rw [(lead4_field _).1]; rfl, rfl, by simp [cont], value, passes⟩

/-- Settles O50: the units are the groups of the frame's words, each well-formed
(`wellFormedUnit_encodeCP`). -/
theorem encoderOutputIsWellFormed : Obligations.EncoderOutputIsWellFormed := by
  refine fun ws => ⟨ws.map encodeCP, encodeFrame_eq_flatten ws, ?_⟩
  exact List.forall_mem_map.mpr fun w _ => (wellFormedUnit_encodeCP w).bytes

end Sys2Proof.Machine
end

section
/-! PROOFS. The statements of no one chapter: decoding against encoding, frames that complete in their
turns, the lengths of decoded frames, what is refused, and what each instruction leaves unchanged. -/

namespace Sys2Proof.Machine

/-! ## Words as their fields -/

/-- Two fields side by side are worth their weighted sum. -/
theorem toNat_append_fields {n m : Nat} (hi : BitVec n) (lo : BitVec m) :
    (hi ++ lo).toNat = hi.toNat * 2 ^ m + lo.toNat := by
  rw [BitVec.toNat_append, ← Nat.shiftLeft_add_eq_or_of_lt lo.isLt, Nat.shiftLeft_eq]

/-- The fields of a word of two fields (R52). -/
theorem extract_fields2 (hi : BitVec 5) (lo : BitVec 6) :
    ((hi ++ lo).setWidth 32 : Word).extractLsb' 6 5 = hi
      ∧ ((hi ++ lo).setWidth 32 : Word).extractLsb' 0 6 = lo := by
  simp only [← BitVec.toNat_inj, BitVec.extractLsb'_toNat, Nat.shiftRight_eq_div_pow,
    BitVec.toNat_setWidth, toNat_append_fields]
  omega

/-- The fields of a word of three fields (R52). -/
theorem extract_fields3 (hi : BitVec 4) (mid lo : BitVec 6) :
    ((hi ++ mid ++ lo).setWidth 32 : Word).extractLsb' 12 4 = hi
      ∧ ((hi ++ mid ++ lo).setWidth 32 : Word).extractLsb' 6 6 = mid
      ∧ ((hi ++ mid ++ lo).setWidth 32 : Word).extractLsb' 0 6 = lo := by
  simp only [← BitVec.toNat_inj, BitVec.extractLsb'_toNat, Nat.shiftRight_eq_div_pow,
    BitVec.toNat_setWidth, toNat_append_fields]
  omega

/-- The fields of a word of four fields (R52). -/
theorem extract_fields4 (top : BitVec 3) (hi mid lo : BitVec 6) :
    ((top ++ hi ++ mid ++ lo).setWidth 32 : Word).extractLsb' 18 3 = top
      ∧ ((top ++ hi ++ mid ++ lo).setWidth 32 : Word).extractLsb' 12 6 = hi
      ∧ ((top ++ hi ++ mid ++ lo).setWidth 32 : Word).extractLsb' 6 6 = mid
      ∧ ((top ++ hi ++ mid ++ lo).setWidth 32 : Word).extractLsb' 0 6 = lo := by
  simp only [← BitVec.toNat_inj, BitVec.extractLsb'_toNat, Nat.shiftRight_eq_div_pow,
    BitVec.toNat_setWidth, toNat_append_fields]
  omega

/-- A word of `k` bits is its low `k` bits. -/
theorem setWidth_low_bits {w : Word} {k : Nat} (h : w.toNat < 2 ^ k) :
    (w.extractLsb' 0 k).setWidth 32 = w := by
  rw [← BitVec.toNat_inj, BitVec.toNat_setWidth, BitVec.extractLsb'_toNat, Nat.shiftRight_zero,
    Nat.mod_eq_of_lt h, Nat.mod_eq_of_lt w.isLt]

/-- A surrogate's value is `0xD800` and its low 11 bits (R76). -/
theorem toNat_surrogate (low : BitVec 11) :
    (0xD800#32 ||| low.setWidth 32).toNat = 0xD800 + low.toNat := by
  rw [BitVec.toNat_or, BitVec.toNat_setWidth_of_le (by decide)]
  exact (Nat.shiftLeft_add_eq_or_of_lt low.isLt 27).symm

/-! ## Decoding what `encode` writes -/

/-- A word of seven bits selects ENC_1B with these bits. -/
theorem decodeWord_of_field1 (p : BitVec 7) : decodeWord (p.setWidth 32) = .enc1B p := by
  have value : (p.setWidth 32 : Word).toNat = p.toNat := BitVec.toNat_setWidth_of_le (by decide)
  have bits : bitw (p.setWidth 32) ≤ 7 := (bitw_le_iff _ 7).mpr (value ▸ p.isLt)
  rw [decodeWord, if_pos bits, BitVec.extractLsb'_setWidth_of_le (by decide),
    BitVec.extractLsb'_eq_self]

/-- Two fields of the class's value range select ENC_2B with them. -/
theorem decodeWord_of_fields2 {hi : BitVec 5} {lo : BitVec 6} (least : 0x80 ≤ (hi ++ lo).toNat) :
    decodeWord ((hi ++ lo).setWidth 32) = .enc2B hi lo := by
  have value : ((hi ++ lo).setWidth 32 : Word).toNat = (hi ++ lo).toNat :=
    BitVec.toNat_setWidth_of_le (by decide)
  have below := (hi ++ lo).isLt
  obtain ⟨t7, t11, -, -⟩ := bitw_tests ((hi ++ lo).setWidth 32)
  obtain ⟨fhi, flo⟩ := extract_fields2 hi lo
  rw [decodeWord_enc2B (by omega) (by omega), fhi, flo]

/-- The surrogate with given low bits selects ENC_SUR with them. -/
theorem decodeWord_of_surrogate (low : BitVec 11) :
    decodeWord (0xD800#32 ||| low.setWidth 32) = .encSur low := by
  have value := toNat_surrogate low
  have below := low.isLt
  obtain ⟨-, t11, t16, -⟩ := bitw_tests (0xD800#32 ||| low.setWidth 32)
  have field : (0xD800#32 ||| low.setWidth 32).extractLsb' 0 11 = low := by
    rw [← BitVec.toNat_inj, BitVec.extractLsb'_toNat, value, Nat.shiftRight_zero]
    omega
  rw [decodeWord_encSur (by omega) (by omega) (by rw [isSurrogate]; omega), field]

/-- Three fields of the class's value range select ENC_3B with them. -/
theorem decodeWord_of_fields3 {hi : BitVec 4} {mid lo : BitVec 6}
    (least : 0x800 ≤ (hi ++ mid ++ lo).toNat) (hs : ¬ isSurrogate (hi ++ mid ++ lo).toNat) :
    decodeWord ((hi ++ mid ++ lo).setWidth 32) = .enc3B hi mid lo := by
  have value : ((hi ++ mid ++ lo).setWidth 32 : Word).toNat = (hi ++ mid ++ lo).toNat :=
    BitVec.toNat_setWidth_of_le (by decide)
  have below := (hi ++ mid ++ lo).isLt
  obtain ⟨-, t11, t16, -⟩ := bitw_tests ((hi ++ mid ++ lo).setWidth 32)
  obtain ⟨fhi, fmid, flo⟩ := extract_fields3 hi mid lo
  rw [decodeWord_enc3B (by omega) (by omega) (value ▸ hs), fhi, fmid, flo]

/-- Four fields of the class's value range select ENC_4B with them. -/
theorem decodeWord_of_fields4 {top : BitVec 3} {hi mid lo : BitVec 6}
    (least : 0x10000 ≤ (top ++ hi ++ mid ++ lo).toNat)
    (most : (top ++ hi ++ mid ++ lo).toNat ≤ 0x10FFFF) :
    decodeWord ((top ++ hi ++ mid ++ lo).setWidth 32) = .enc4B top hi mid lo := by
  have value : ((top ++ hi ++ mid ++ lo).setWidth 32 : Word).toNat
      = (top ++ hi ++ mid ++ lo).toNat := BitVec.toNat_setWidth_of_le (by decide)
  obtain ⟨-, -, t16, t21⟩ := bitw_tests ((top ++ hi ++ mid ++ lo).setWidth 32)
  obtain ⟨ftop, fhi, fmid, flo⟩ := extract_fields4 top hi mid lo
  rw [decodeWord_enc4B (by omega) (by omega) (by omega), ftop, fhi, fmid, flo]

/-- Settles O5: a word's value lies in the range of its class, whose fields it gives back; a byte is
checked over all values of its field. -/
theorem decodeOfEncodeIsTheInstruction : Obligations.DecodeOfEncodeIsTheInstruction := by
  intro i wf
  cases i with
  | enc1B p => exact congrArg Except.ok (decodeWord_of_field1 p)
  | enc2B hi lo => exact congrArg Except.ok (decodeWord_of_fields2 (of_decide_eq_true wf))
  | encSur low => exact congrArg Except.ok (decodeWord_of_surrogate low)
  | enc3B hi mid lo =>
    simp only [Instr.WellFormed, Instr.wellFormed, Bool.and_eq_true, Bool.not_eq_true',
      decide_eq_true_eq, decide_eq_false_iff_not] at wf
    obtain ⟨least, hs⟩ := wf
    exact congrArg Except.ok (decodeWord_of_fields3 least hs)
  | enc4B top hi mid lo =>
    simp only [Instr.WellFormed, Instr.wellFormed, Bool.and_eq_true, decide_eq_true_eq] at wf
    obtain ⟨least, most⟩ := wf
    exact congrArg Except.ok (decodeWord_of_fields4 least most)
  | encOvr w => exact congrArg Except.ok (decodeWord_encOvr (of_decide_eq_true wf))
  | encFrame n | decFrame n | decDrain b => rfl
  | decAscii p | decLead2 p | decLead2Trunc p | decLead3 p | decLead3Trunc p | decLead4 p
  | decLead4Trunc p | decStray p | decBadlead p | decCont p | decContLast p =>
    clear wf
    revert p
    decide
  | decBadcont b =>
    revert b
    decide

/-! ## What decodes carries its whole element -/

/-- An instruction is well-formed, and the element `encode` writes for it is the one of `f`. -/
def Carries (i : Instr) (f : Fetch) : Prop := i.WellFormed ∧ sameElement (encode i) f

/-- Fields that make up a word have the word's value. -/
theorem toNat_of_fields {n : Nat} {x : BitVec n} {w : Word} (hn : n ≤ 32) (h : x.setWidth 32 = w) :
    x.toNat = w.toNat := by
  rw [← h, BitVec.toNat_setWidth_of_le hn]

/-- The fields of a word of at most 11 bits make it up. -/
theorem append_fields2 {w : Word} (h : w.toNat < 0x800) :
    (w.extractLsb' 6 5 ++ w.extractLsb' 0 6).setWidth 32 = w := by
  rw [BitVec.extractLsb'_append_extractLsb'_eq_extractLsb' (by rfl)]
  exact setWidth_low_bits h

/-- The fields of a word of at most 16 bits make it up. -/
theorem append_fields3 {w : Word} (h : w.toNat < 0x10000) :
    (w.extractLsb' 12 4 ++ w.extractLsb' 6 6 ++ w.extractLsb' 0 6).setWidth 32 = w := by
  rw [BitVec.extractLsb'_append_extractLsb'_eq_extractLsb' (by rfl),
    BitVec.extractLsb'_append_extractLsb'_eq_extractLsb' (by rfl)]
  exact setWidth_low_bits h

/-- The fields of a word of at most 21 bits make it up. -/
theorem append_fields4 {w : Word} (h : w.toNat < 0x200000) :
    (w.extractLsb' 18 3 ++ w.extractLsb' 12 6 ++ w.extractLsb' 6 6 ++ w.extractLsb' 0 6).setWidth 32
      = w := by
  rw [BitVec.extractLsb'_append_extractLsb'_eq_extractLsb' (by rfl),
    BitVec.extractLsb'_append_extractLsb'_eq_extractLsb' (by rfl),
    BitVec.extractLsb'_append_extractLsb'_eq_extractLsb' (by rfl)]
  exact setWidth_low_bits h

/-- The low 11 bits of a surrogate make it up. -/
theorem surrogate_of_low_bits {w : Word} (hs : isSurrogate w.toNat) :
    0xD800#32 ||| (w.extractLsb' 0 11).setWidth 32 = w := by
  obtain ⟨least, most⟩ := hs
  rw [← BitVec.toNat_inj, toNat_surrogate, BitVec.extractLsb'_toNat, Nat.shiftRight_zero]
  omega

/-- The operation a word selects carries the word. -/
theorem decodeWord_carries (w : Word) : Carries (decodeWord w) (.word w) := by
  obtain ⟨t7, t11, t16, t21⟩ := bitw_tests w
  unfold decodeWord
  split_ifs with h7 h11 hs h16 h21
  · exact ⟨rfl, setWidth_low_bits (t7.mp h7)⟩
  · have fields := append_fields2 (t11.mp h11)
    have value := toNat_of_fields (by decide) fields
    exact ⟨decide_eq_true (by omega), fields⟩
  · obtain ⟨-, surrogate⟩ := hs
    exact ⟨rfl, surrogate_of_low_bits surrogate⟩
  · have fields := append_fields3 (t16.mp h16)
    have value := toNat_of_fields (by decide) fields
    refine ⟨?_, fields⟩
    simp only [Instr.WellFormed, Instr.wellFormed, Bool.and_eq_true, Bool.not_eq_true',
      decide_eq_true_eq, decide_eq_false_iff_not]
    exact ⟨by omega, value ▸ fun surrogate => hs ⟨h16, surrogate⟩⟩
  · obtain ⟨h21, most⟩ := h21
    have fields := append_fields4 (t21.mp h21)
    have value := toNat_of_fields (by decide) fields
    refine ⟨?_, fields⟩
    simp only [Instr.WellFormed, Instr.wellFormed, Bool.and_eq_true, decide_eq_true_eq]
    exact ⟨by omega, value ▸ most⟩
  · exact ⟨decide_eq_true (by omega), rfl⟩

/-- A byte of no unit's format is the match of R53 with its low three bits. -/
theorem bad_eq_marker_or_field : ∀ b : Byte,
    formatOf b = .bad → b = 0xF8#8 ||| (b.extractLsb' 0 3).setWidth 8 := by
  decide

/-- The operation a byte selects in `START` carries the byte. -/
theorem decodeStart_carries (mode : Mode) (rem rem' : Nat) (bits exp : Count5) (b : Byte) :
    Carries (decodeStart rem b) (.byte mode rem' bits exp b) := by
  obtain ⟨ascii, cont, lead2, lead3, lead4⟩ := byte_eq_marker_or_field b
  unfold decodeStart
  cases hf : formatOf b with
  | ascii => exact ⟨rfl, (ascii hf).symm⟩
  | cont => exact ⟨rfl, (cont hf).symm⟩
  | bad => exact ⟨rfl, (bad_eq_marker_or_field b hf).symm⟩
  | lead2 => dsimp only; split <;> exact ⟨rfl, (lead2 hf).symm⟩
  | lead3 => dsimp only; split <;> exact ⟨rfl, (lead3 hf).symm⟩
  | lead4 => dsimp only; split <;> exact ⟨rfl, (lead4 hf).symm⟩

/-- The operation a byte selects in `CONT` carries the byte. -/
theorem decodeCont_carries {bits exp : Count5} {b : Byte} {i : Instr}
    (h : decodeCont bits exp b = .ok i) (mode : Mode) (rem : Nat) (bits' exp' : Count5) :
    Carries i (.byte mode rem bits' exp' b) := by
  obtain ⟨-, cont, -⟩ := byte_eq_marker_or_field b
  obtain ⟨-, -, -, -, mask⟩ := byte_tests b
  unfold decodeCont at h
  split_ifs at h with hf below total <;> cases h
  · exact ⟨rfl, (cont hf).symm⟩
  · exact ⟨rfl, (cont hf).symm⟩
  · exact ⟨bne_iff_ne.mpr (mt mask.mp hf), rfl⟩

/-- The operation a byte selects carries the byte. -/
theorem decode_byte_carries {mode : Mode} {rem : Nat} {bits exp : Count5} {b : Byte} {i : Instr}
    (h : decode (.byte mode rem bits exp b) = .ok i) : Carries i (.byte mode rem bits exp b) := by
  simp only [decode, decodeByte] at h
  split at h
  · cases h
  · cases mode with
    | start => cases h; exact decodeStart_carries _ _ _ _ _ b
    | cont => exact decodeCont_carries h _ _ _ _
    | drain => cases h; exact ⟨rfl, rfl⟩

/-- Settles O6: the fields of a class make up its words (`decodeWord_carries`), and a byte is its
format's match with its payload field (`decode_byte_carries`). -/
theorem decodedInstructionCarriesItsElement : Obligations.DecodedInstructionCarriesItsElement := by
  intro f i h
  cases f with
  | word w => cases h; exact decodeWord_carries w
  | byte mode rem bits exp b => exact decode_byte_carries h
  | encCommand n | decCommand n => cases h; exact ⟨rfl, rfl⟩

/-- Settles O7: each written-out element is evaluated. -/
theorem writtenOutElementsDecode : Obligations.WrittenOutElementsDecode := by
  unfold Obligations.WrittenOutElementsDecode
  decide

/-! ## Frames that complete in their turns -/

/-- A run whose first step answers a next state goes on from there. -/
theorem runSteps_of_step {k : Nat} {s t : State} (h : step s = .next t) :
    runSteps (k + 1) s = runSteps k t := by
  simp only [runSteps, h]

/-- `s` inside an encoder frame: the words `ws` of the frame are left at the head of `ENC_IN`, `out`
is in `ENC_OUT`, and as many encoder turns come next. With no words left the encoder is idle. -/
def State.encFrameAt (s : State) (ws more : List Word) (out : List Byte) (rest : List Event) :
    State :=
  { s with
    pending := List.replicate ws.length (.turn .enc) ++ rest
    enc := ⟨frameOpen ws.length, ws.length, ws ++ more, out⟩ }

/-- An encoder turn inside a frame takes its next word. -/
theorem step_encFrameAt {s : State} {w : Word} {ws more : List Word} {out : List Byte}
    {rest : List Event} (room : out.length + 4 ≤ s.cfg.encOutDepth) :
    step (s.encFrameAt (w :: ws) more out rest)
      = .next (s.encFrameAt ws more (out ++ encodeCP w) rest) :=
  encoderElementStep.1 _ w (ws ++ more) _ rfl rfl (Nat.succ_pos _) rfl room

/-- With room for four bytes a word, a frame's turns take all its words and emit `Encode` of
them. -/
theorem runSteps_encFrameAt {s : State} {ws more : List Word} {rest : List Event} :
    ∀ {out : List Byte}, out.length + 4 * ws.length ≤ s.cfg.encOutDepth →
      runSteps ws.length (s.encFrameAt ws more out rest)
        = .next (s.encFrameAt [] more (out ++ encodeFrame ws) rest) := by
  induction ws with
  | nil => simp [runSteps, encodeFrame]
  | cons w ws ih =>
    intro out room
    rw [List.length_cons] at room
    have four := length_encodeCP_le w
    have room' : (out ++ encodeCP w).length + 4 * ws.length ≤ s.cfg.encOutDepth := by
      rw [List.length_append]
      omega
    rw [List.length_cons, runSteps_of_step (step_encFrameAt (by omega)), ih room', encodeFrame,
      List.append_assoc]

/-- Settles O24: an accepted command sets `E.rem` to the number of words, and the turns take them
one by one (`runSteps_encFrameAt`). -/
theorem encoderFrameCompletesInItsTurns : Obligations.EncoderFrameCompletesInItsTurns := by
  intro s ws more rest hp idle fits hi room
  have started : step s = .next (s.encFrameAt ws more s.enc.output rest) := by
    rw [step_scheduled hp, State.encFrameAt, ← hi]
    exact startFrame_accepts (e := .enc) idle fits
  rw [runSteps_of_step started, runSteps_encFrameAt room]
  rfl

/-- `s` inside a decoder frame: the bytes `bs` of the frame are left at the head of `DEC_IN`, the
unit registers are `u`, `out` is in `DEC_OUT`, and as many decoder turns come next. With no bytes
left the decoder is idle. -/
def State.decFrameAt (s : State) (u : UnitRegs) (bs more : List Byte) (out : List Word)
    (rest : List Event) : State :=
  { s with
    pending := List.replicate bs.length (.turn .dec) ++ rest
    dec := ⟨frameOpen bs.length, bs.length, u, bs ++ more, out⟩ }

/-- A decoder turn inside a frame takes its next byte. -/
theorem step_decFrameAt {s : State} {u : UnitRegs} {b : Byte} {bs more : List Byte}
    {out : List Word} {rest : List Event} (hu : UnitInv u (bs.length + 1))
    (room : out.length + 1 ≤ s.cfg.decOutDepth) :
    step (s.decFrameAt u (b :: bs) more out rest)
      = .next (s.decFrameAt (decodeStep s.cfg.decValidate u (bs.length + 1) b).1 bs more
          (out ++ (decodeStep s.cfg.decValidate u (bs.length + 1) b).2) rest) :=
  decoderElementStep.1 _ b (bs ++ more) _ rfl rfl (Nat.succ_pos _) hu rfl room

/-- With room for a word a byte, a frame's turns take all its bytes, emit `Decode` of them and leave
unit registers that are legal where no byte remains. -/
theorem runSteps_decFrameAt {s : State} {bs more : List Byte} {rest : List Event} :
    ∀ {u : UnitRegs} {out : List Word}, UnitInv u bs.length →
      out.length + bs.length ≤ s.cfg.decOutDepth →
      ∃ u', UnitInv u' 0 ∧ runSteps bs.length (s.decFrameAt u bs more out rest)
        = .next (s.decFrameAt u' [] more (out ++ decodeFrom s.cfg.decValidate u bs) rest) := by
  induction bs with
  | nil => exact fun hu _ => ⟨_, hu, by simp [runSteps, decodeFrom]⟩
  | cons b bs ih =>
    intro u out hu room
    rw [List.length_cons] at hu room
    obtain ⟨hu', one, -⟩ := decodeStep_inv s.cfg.decValidate b hu
    have room' : (out ++ (decodeStep s.cfg.decValidate u (bs.length + 1) b).2).length + bs.length
        ≤ s.cfg.decOutDepth := by
      rw [List.length_append]
      omega
    obtain ⟨u', closed, run⟩ := ih hu' room'
    refine ⟨u', closed, ?_⟩
    rw [List.length_cons, runSteps_of_step (step_decFrameAt hu (by omega)), run, decodeFrom,
      List.append_assoc]

/-- Settles O42: an accepted command clears the unit registers and sets `D.rem` to the number of
bytes, the turns take them one by one (`runSteps_decFrameAt`), and no unit is open where no byte
remains. -/
theorem decoderFrameCompletesInItsTurns : Obligations.DecoderFrameCompletesInItsTurns := by
  intro s bs more rest hp idle fits hi room
  have started : step s = .next (s.decFrameAt (.clear .start) bs more s.dec.output rest) := by
    rw [step_scheduled hp, State.decFrameAt, ← hi]
    exact startFrame_accepts (e := .dec) idle fits
  obtain ⟨u, closed, run⟩ :=
    runSteps_decFrameAt (rest := rest) (unitInv_clear (m := .start) (by decide) (by simp)) room
  refine ⟨u, ?_, (runSteps_of_step started).trans run⟩
  have := closed.mode_ne_cont
  cases hm : u.mode with
  | start => exact .inl rfl
  | cont => exact absurd hm this
  | drain => exact .inr rfl

/-! ## The length of a decoded frame -/

/-- Whether a selected operation emits a word. A fetch that selects none counts as one that does:
with bytes left it can only be a counter past its total, where `decodeStep` completes the unit. -/
def emitsWord : Except Reject Instr → Bool
  | .ok i => !isSilent i
  | .error _ => true

/-- A byte emits one word or none, as the operation it selects says (R103). -/
theorem length_decodeStep (v : Bool) (u : UnitRegs) {rem : Nat} (b : Byte) (h : 1 ≤ rem) :
    (decodeStep v u rem b).2.length
      = if emitsWord (decode (.byte u.mode rem u.bits u.exp b)) then 1 else 0 := by
  obtain ⟨ascii, lead2, lead3, lead4, cont⟩ := byte_tests b
  cases hm : u.mode with
  | start =>
    rw [decode_start _ _ b h]
    cases hf : formatOf b <;>
      simp only [decodeStep, hm, decodeStart, ascii, lead2, lead3, lead4, hf, reduceCtorEq,
        if_false, if_true]
    case ascii | cont | bad => rfl
    case lead2 | lead3 | lead4 => split <;> rfl
  | cont =>
    rw [decode_cont _ _ b h]
    simp only [decodeStep, hm, decodeCont, cont]
    split_ifs <;> simp_all [emitsWord, isSilent]
  | drain =>
    rw [decode_drain _ _ b h]
    simp [decodeStep, hm, emitsWord, isSilent]

/-- A frame's output has a word for each of its operations that emits one. -/
theorem length_decodeFrom (v : Bool) (bs : List Byte) :
    ∀ u : UnitRegs, (decodeFrom v u bs).length = (frameOps v u bs).countP emitsWord := by
  induction bs with
  | nil => exact fun _ => rfl
  | cons b bs ih =>
    intro u
    rw [decodeFrom, List.length_append, length_decodeStep v u b (Nat.succ_pos _), ih, frameOps,
      List.countP_cons, Nat.add_comm]

/-- A frame has one operation for each byte. -/
theorem length_frameOps (v : Bool) (bs : List Byte) :
    ∀ u : UnitRegs, (frameOps v u bs).length = bs.length := by
  induction bs with
  | nil => exact fun _ => rfl
  | cons b bs ih => exact fun u => congrArg Nat.succ (ih _)

/-- Settles O44: the output counts the operations that emit (`length_decodeFrom`), of which there is
one a byte. -/
theorem decodeEmitsAtMostOneWordPerByte : Obligations.DecodeEmitsAtMostOneWordPerByte := by
  intro v bs
  rw [decodeFrame, length_decodeFrom, ← length_frameOps v bs (.clear .start)]
  refine ⟨List.countP_le_length,
    List.countP_eq_length.trans ⟨fun all i hi => ?_, fun all o ho => ?_⟩⟩
  · simpa [emitsWord] using all _ hi
  · cases o with
    | ok i => simpa [emitsWord] using all i ho
    | error r => rfl

/-! ## Reset -/

/-- An engine without a frame in progress has no step, so its turn waits. -/
theorem engineTurn_of_idle {e : Engine} {s : State} (idle : s.busy e = false) :
    engineTurn e s = .next s := by
  cases e with
  | enc => exact engineTurn_enc_waits fun ⟨active, _⟩ => Bool.eq_false_iff.mp idle active
  | dec => exact engineTurn_dec_waits fun ⟨active, _⟩ => Bool.eq_false_iff.mp idle active

/-- Settles O2: a scheduled reset is `hardwareReset`, and an idle engine's turn waits. -/
theorem hardwareResetFromAnyState : Obligations.HardwareResetFromAnyState := by
  refine ⟨fun s rest hp => step_scheduled hp, fun e s t idle h => ?_⟩
  cases (engineTurn_of_idle idle).symm.trans h
  exact ⟨rfl, rfl⟩

/-- Settles O3: each engine's part of the invariant holds after reset, under any parameters. -/
theorem resetMeetsTheInvariant : Obligations.ResetMeetsTheInvariant :=
  (inv_iff _).mpr ⟨by decide, .reset _, .reset _⟩

/-! ## The selected operation runs -/

/-- A turn whose fetch selects an operation runs it. -/
theorem engineTurn_of_fetch {e : Engine} {s : State} {f : Fetch} {i : Instr}
    (fetched : fetch s e = some f) (selected : decode f = .ok i) : engineTurn e s = exec i s := by
  simp only [engineTurn, fetched, runFetch, selected]

/-- Settles O8: a scheduled turn runs the operation that its engine's fetch selects
(`engineTurn_of_fetch`), or waits. -/
theorem stepRunsTheSelectedInstruction : Obligations.StepRunsTheSelectedInstruction := by
  refine ⟨fun s rest w ws hp ready hi => ⟨decodeWord w, rfl, ?_⟩,
    fun s rest b bs i hp ready hi selected => ?_, fun s rest n => step_scheduled,
    fun s rest n => step_scheduled, fun s rest hp waits => ?_, fun s rest hp waits => ?_,
    fun s hp => ⟨_, step_unscheduled hp⟩⟩
  · exact (step_scheduled hp).trans
      (engineTurn_of_fetch (s := s.withPending rest) (fetchEnc_ready ready hi) rfl)
  · exact (step_scheduled hp).trans
      (engineTurn_of_fetch (s := s.withPending rest) (fetchDec_ready ready hi) selected)
  · exact (step_scheduled hp).trans (engineTurn_enc_waits (s := s.withPending rest) waits)
  · exact (step_scheduled hp).trans (engineTurn_dec_waits (s := s.withPending rest) waits)

/-! ## Frame commands -/

/-- A command on an active engine is refused, whatever its count (R120, log 8). -/
theorem startFrame_of_active {e : Engine} {s : State} (n : Nat) (after : State)
    (active : s.busy e = true) : startFrame e n after s = .refused (.frameWhileActive e) :=
  if_pos active

/-- A count above `MAX_FRAME` on an idle engine is refused (R120). -/
theorem startFrame_of_large {e : Engine} {s : State} {n : Nat} (after : State)
    (idle : s.busy e = false) (large : s.cfg.maxFrame < n) :
    startFrame e n after s = .refused (.countAboveMaxFrame e) := by
  simp [startFrame, idle, large]

/-- A command is accepted exactly where it commits neither violation (R120). -/
theorem startFrame_accepts_iff {e : Engine} {n : Nat} {after s : State} :
    (∃ t, startFrame e n after s = .next t) ↔ ¬ (s.busy e = true ∨ s.cfg.maxFrame < n) := by
  rw [not_or, Bool.not_eq_true, Nat.not_lt]
  constructor
  · rintro ⟨t, h⟩
    obtain ⟨idle, fits, -⟩ := startFrame_cases h
    exact ⟨idle, fits⟩
  · rintro ⟨idle, fits⟩
    exact ⟨_, startFrame_accepts idle fits⟩

/-- Settles O20: the command is accepted or refused by its two tests, and an idle encoder's turn
waits. -/
theorem encFrameStartsAFrameOrIsRefused : Obligations.EncFrameStartsAFrameOrIsRefused := by
  refine ⟨fun n s => startFrame_accepts (e := .enc),
    fun n s => startFrame_of_active (e := .enc) n _,
    fun n s => startFrame_of_large (e := .enc) _, rfl, fun s t idle h => ?_, by decide⟩
  cases (engineTurn_of_idle (e := .enc) idle).symm.trans h
  rfl

/-- Settles O38: the command is accepted or refused by its two tests, and a starved decoder's turn
waits. -/
theorem decFrameStartsAFrameOrIsRefused : Obligations.DecFrameStartsAFrameOrIsRefused := by
  refine ⟨fun n s => startFrame_accepts (e := .dec),
    fun n s => startFrame_of_active (e := .dec) n _,
    fun n s => startFrame_of_large (e := .dec) _, fun s t _ starved h => ?_, fun v => ⟨rfl, rfl⟩⟩
  cases (engineTurn_dec_waits fun ⟨_, _, nonempty, _⟩ => nonempty starved).symm.trans h
  rfl

/-- Settles O60: an accepted command replaces its engine's cursor, busy bit and, for the decoder,
unit registers alone. -/
theorem frameCommandsFrame : Obligations.FrameCommandsFrame := by
  refine ⟨fun n s t h => ?_, fun n s t h => ?_⟩
  · obtain ⟨-, -, rfl⟩ := startFrame_cases (e := .enc) h
    exact ⟨rfl, rfl, rfl, rfl, rfl, rfl, rfl⟩
  · obtain ⟨-, -, rfl⟩ := startFrame_cases (e := .dec) h
    exact ⟨rfl, rfl, rfl, rfl, rfl, rfl, rfl⟩

/-! ## Host pushes and pops -/

/-- The host pops the oldest byte of `ENC_OUT` (R32). -/
theorem popEnc_of_cons {s : State} {b : Byte} {bs : List Byte} (ho : s.enc.output = b :: bs) :
    popEnc s = .next ((s.withEnc { s.enc with output := bs }).withHost
      { s.host with encGot := s.host.encGot ++ [b] }) := by
  simp only [popEnc, ho]

/-- The host pops the oldest word of `DEC_OUT` (R32). -/
theorem popDec_of_cons {s : State} {w : Word} {ws : List Word} (ho : s.dec.output = w :: ws) :
    popDec s = .next ((s.withDec { s.dec with output := ws }).withHost
      { s.host with decGot := s.host.decGot ++ [w] }) := by
  simp only [popDec, ho]

/-- A pop from an empty `ENC_OUT` is refused (R120). -/
theorem popEnc_of_nil {s : State} (ho : s.enc.output = []) :
    popEnc s = .refused (.popFromEmptyChannel .enc) := by
  simp only [popEnc, ho]

/-- A pop from an empty `DEC_OUT` is refused (R120). -/
theorem popDec_of_nil {s : State} (ho : s.dec.output = []) :
    popDec s = .refused (.popFromEmptyChannel .dec) := by
  simp only [popDec, ho]

/-- Settles O57: a push with room appends, and a pop takes the head (`popEnc_of_cons`,
`popDec_of_cons`). -/
theorem hostPushesAndPopsAreFirstInFirstOut : Obligations.HostPushesAndPopsAreFirstInFirstOut :=
  ⟨fun _ _ _ hp room => (step_scheduled hp).trans (if_pos room),
    fun _ _ _ hp room => (step_scheduled hp).trans (if_pos room),
    fun s rest _ _ hp ho => (step_scheduled hp).trans (popEnc_of_cons (s := s.withPending rest) ho),
    fun s rest _ _ hp ho => (step_scheduled hp).trans (popDec_of_cons (s := s.withPending rest) ho)⟩

/-! ## What is refused -/

/-- In a state that meets R28 a turn of either engine answers a next state (R81, R102). -/
theorem engineTurn_answers {s : State} (hu : UnitInv s.dec.unit s.dec.rem) (e : Engine) :
    ∃ t, engineTurn e s = .next t := by
  cases e with
  | enc =>
    obtain ⟨e, turn⟩ := engineTurn_enc_local s
    exact ⟨_, turn s rfl rfl⟩
  | dec =>
    by_cases ready : DecReady s
    · have ⟨_, _, nonempty, _⟩ := ready
      obtain ⟨b, bs, hi⟩ := List.exists_cons_of_ne_nil nonempty
      exact ⟨_, engineTurn_dec_ready hu ready hi⟩
    · exact ⟨_, engineTurn_dec_waits ready⟩

/-- In a state that meets R28 a move answers a next state exactly where it is no violation
(R120). -/
theorem runEvent_answers_iff {s : State} (hu : UnitInv s.dec.unit s.dec.rem) (ev : Event) :
    (∃ t, runEvent ev s = .next t) ↔ ¬ Violation s ev := by
  cases ev with
  | turn e => exact iff_of_true (engineTurn_answers hu e) not_false
  | encCommand n => exact startFrame_accepts_iff (e := .enc)
  | decCommand n => exact startFrame_accepts_iff (e := .dec)
  | pushEnc w =>
    exact ⟨fun ⟨_, h⟩ => Nat.not_le.mpr (pushEnc_cases h).1,
      fun room => ⟨_, if_pos (Nat.not_le.mp room)⟩⟩
  | pushDec b =>
    exact ⟨fun ⟨_, h⟩ => Nat.not_le.mpr (pushDec_cases h).1,
      fun room => ⟨_, if_pos (Nat.not_le.mp room)⟩⟩
  | popEnc =>
    constructor
    · rintro ⟨t, h⟩ empty
      cases (popEnc_of_nil empty).symm.trans h
    · intro nonempty
      obtain ⟨b, bs, ho⟩ := List.exists_cons_of_ne_nil nonempty
      exact ⟨_, popEnc_of_cons ho⟩
  | popDec =>
    constructor
    · rintro ⟨t, h⟩ empty
      cases (popDec_of_nil empty).symm.trans h
    · intro nonempty
      obtain ⟨w, ws, ho⟩ := List.exists_cons_of_ne_nil nonempty
      exact ⟨_, popDec_of_cons ho⟩
  | readEncBusy | readDecBusy | hardwareReset => exact iff_of_true ⟨_, rfl⟩ not_false

/-- Settles O51: each violation is refused by the test of its operation, a starved engine waits
(`encoderElementStep`, `decoderElementStep`), and any other move answers
(`runEvent_answers_iff`). -/
theorem onlyHostViolationsAreRefused : Obligations.OnlyHostViolationsAreRefused := by
  refine ⟨fun s rest n active hp => ?_, fun s rest n active hp => ?_,
    fun s rest n idle large hp => ?_, fun s rest n idle large hp => ?_,
    fun s rest w full hp => ?_, fun s rest b full hp => ?_,
    fun s rest empty hp => ?_, fun s rest empty hp => ?_,
    fun s t rest _ starved hp => encoderElementStep.2 s t rest hp (.inr (.inl starved)),
    fun s t rest _ starved hp => decoderElementStep.2 s t rest hp (.inr (.inl starved)),
    fun s hi hp => ?_, fun s ev rest hi hp => ?_⟩
  · exact (step_scheduled hp).trans (startFrame_of_active (e := .enc) n _ active)
  · exact (step_scheduled hp).trans (startFrame_of_active (e := .dec) n _ active)
  · exact (step_scheduled hp).trans (startFrame_of_large (e := .enc) _ idle large)
  · exact (step_scheduled hp).trans (startFrame_of_large (e := .dec) _ idle large)
  · exact (step_scheduled hp).trans (if_neg (Nat.not_lt.mpr full))
  · exact (step_scheduled hp).trans (if_neg (Nat.not_lt.mpr full))
  · exact (step_scheduled hp).trans (popEnc_of_nil (s := s.withPending rest) empty)
  · exact (step_scheduled hp).trans (popDec_of_nil (s := s.withPending rest) empty)
  · obtain ⟨-, -, hd⟩ := (inv_iff s).mp hi
    rw [step_unscheduled hp]
    exact engineTurn_answers (s := s.tick) hd.unit _
  · obtain ⟨-, -, hd⟩ := (inv_iff s).mp hi
    rw [step_scheduled hp]
    exact runEvent_answers_iff (s := s.withPending rest) hd.unit ev

/-! ## Parameters and busy bits -/

/-- A turn changes no busy bit but its own engine's, and that only by an enabled step (R31). -/
theorem engineTurn_busy {s t : State} {e : Engine} (h : engineTurn e s = .next t) :
    (t.enc.active ≠ s.enc.active → e = .enc ∧ EncReady s)
      ∧ (t.dec.active ≠ s.dec.active → e = .dec ∧ DecReady s) := by
  cases e with
  | enc =>
    obtain ⟨-, rfl⟩ | ⟨w, ws, ready, -, rfl⟩ := engineTurn_enc_cases h
    · exact ⟨absurd rfl, absurd rfl⟩
    · exact ⟨fun _ => ⟨rfl, ready⟩, absurd rfl⟩
  | dec =>
    obtain ⟨-, rfl⟩ | ⟨b, bs, u, out, ready, -, rfl, -⟩ := engineTurn_dec_consumes h
    · exact ⟨absurd rfl, absurd rfl⟩
    · exact ⟨absurd rfl, fun _ => ⟨rfl, ready⟩⟩

/-- A scheduled move changes a busy bit only as a turn or frame command of the bit's engine, or as
hardware reset (R31). -/
theorem runEvent_busy {s t : State} {ev : Event} (h : runEvent ev s = .next t) :
    (t.enc.active ≠ s.enc.active →
        ev = .turn .enc ∨ (∃ n, ev = .encCommand n) ∨ ev = .hardwareReset)
      ∧ (t.dec.active ≠ s.dec.active →
        ev = .turn .dec ∨ (∃ n, ev = .decCommand n) ∨ ev = .hardwareReset) := by
  cases ev with
  | turn e =>
    obtain ⟨enc, dec⟩ := engineTurn_busy h
    exact ⟨fun changed => .inl (congrArg _ (enc changed).1),
      fun changed => .inl (congrArg _ (dec changed).1)⟩
  | encCommand n =>
    obtain ⟨-, -, rfl⟩ := startFrame_cases (e := .enc) h
    exact ⟨fun _ => .inr (.inl ⟨n, rfl⟩), absurd rfl⟩
  | decCommand n =>
    obtain ⟨-, -, rfl⟩ := startFrame_cases (e := .dec) h
    exact ⟨absurd rfl, fun _ => .inr (.inl ⟨n, rfl⟩)⟩
  | pushEnc w =>
    obtain ⟨-, rfl⟩ := pushEnc_cases h
    exact ⟨absurd rfl, absurd rfl⟩
  | pushDec b =>
    obtain ⟨-, rfl⟩ := pushDec_cases h
    exact ⟨absurd rfl, absurd rfl⟩
  | popEnc =>
    obtain ⟨b, bs, -, rfl⟩ := popEnc_cases h
    exact ⟨absurd rfl, absurd rfl⟩
  | popDec =>
    obtain ⟨w, ws, -, rfl⟩ := popDec_cases h
    exact ⟨absurd rfl, absurd rfl⟩
  | readEncBusy | readDecBusy =>
    cases h
    exact ⟨absurd rfl, absurd rfl⟩
  | hardwareReset => exact ⟨fun _ => .inr (.inr rfl), fun _ => .inr (.inr rfl)⟩

/-- Settles O53, from what a step does to the parameters (`step_effect`) and what a move and a turn
do to the busy bits. -/
theorem parametersAndBusyBitsChangeOnlyAsSaid :
    Obligations.ParametersAndBusyBitsChangeOnlyAsSaid := by
  refine ⟨fun s t h => ?_, fun s t ev rest hp h => ?_, fun s t hp h => ?_,
    fun s t e => engineTurn_busy, fun s rest => step_scheduled, fun s rest => step_scheduled⟩
  · obtain ⟨cfg, -⟩ := step_effect h
    exact cfg
  · rw [step_scheduled hp] at h
    exact runEvent_busy (s := s.withPending rest) h
  · rw [step_unscheduled hp] at h
    obtain ⟨enc, dec⟩ := engineTurn_busy (s := s.tick) h
    exact ⟨_, step_unscheduled hp, fun changed => (enc changed).1, fun changed => (dec changed).1⟩

/-! ## What the element operations leave unchanged -/

/-- An encoder operation is one encoder element step with a group of one to four bytes. -/
theorem exec_encoder_element {i : Instr} (hf : familyOf i = .encoder) :
    ∃ g : List Byte, (1 ≤ g.length ∧ g.length ≤ 4) ∧ ∀ s, exec i s = encElement g s := by
  cases i with
  | enc1B _ | enc2B _ _ | encSur _ | enc3B _ _ _ | enc4B _ _ _ _ | encOvr _ =>
    refine ⟨_, ?_, fun _ => rfl⟩
    simp [group1, group2, group3, group4, replBytes]
  | encFrame _ | decAscii _ | decLead2 _ | decLead2Trunc _ | decLead3 _ | decLead3Trunc _
  | decLead4 _ | decLead4Trunc _ | decStray _ | decBadlead _ | decCont _ | decContLast _
  | decBadcont _ | decDrain _ | decFrame _ => cases hf

/-- Settles O58: each operation is one element step (`exec_encoder_element`), which replaces the
encoder alone or waits. -/
theorem encoderOperationsFrame : Obligations.EncoderOperationsFrame := by
  intro i s t hf h
  obtain ⟨g, lengths, element⟩ := exec_encoder_element hf
  obtain ⟨ready, rfl⟩ | ⟨waits, rfl⟩ := encElement_cases (element s ▸ h)
  · have ⟨_, remaining, _⟩ := ready
    exact ⟨rfl, rfl, rfl, rfl, rfl, fun waits => absurd ready waits,
      fun _ => ⟨rfl, Nat.sub_add_cancel remaining, rfl, g, rfl, lengths⟩⟩
  · exact ⟨rfl, rfl, rfl, rfl, rfl, fun _ => rfl, fun ready => absurd ready waits⟩

/-- What a decoder operation at the unit registers `r` does to them and how many words it emits. -/
structure DecOutcome (i : Instr) (r u : UnitRegs) (out : List Word) : Prop where
  words : out.length = if isSilent i = true then 0 else 1
  kept : ((∃ p, i = .decAscii p) ∨ ∃ b, i = .decDrain b) → u = r
  cont : (∃ p, i = .decCont p) → u.mode = r.mode ∧ u.exp = r.exp

/-- A decoder operation that answers a next state is one decoder element step with its outcome. -/
theorem exec_decoder_outcome {i : Instr} {s t : State} (hf : familyOf i = .decoder)
    (h : exec i s = .next t) :
    ∃ u out, decElement u out s = .next t ∧ DecOutcome i s.dec.unit u out := by
  cases i with
  | enc1B _ | enc2B _ _ | encSur _ | enc3B _ _ _ | enc4B _ _ _ _ | encOvr _ | encFrame _
  | decFrame _ => cases hf
  | decAscii _ | decDrain _ => exact ⟨_, _, h, rfl, fun _ => rfl, by simp⟩
  | decCont p => exact ⟨_, _, h, rfl, by simp, fun _ => ⟨rfl, rfl⟩⟩
  | decContLast p =>
    obtain ⟨w, one⟩ := execDecContLast_one_word h
    exact ⟨_, _, one, rfl, by simp, by simp⟩
  | decLead2 _ | decLead2Trunc _ | decLead3 _ | decLead3Trunc _ | decLead4 _ | decLead4Trunc _
  | decStray _ | decBadlead _ | decBadcont _ => exact ⟨_, _, h, rfl, by simp, by simp⟩

/-- Settles O59: each operation is one element step with its outcome (`exec_decoder_outcome`), which
replaces the decoder alone or waits. -/
theorem decoderOperationsFrame : Obligations.DecoderOperationsFrame := by
  intro i s t hf h
  obtain ⟨u, out, element, words, kept, cont⟩ := exec_decoder_outcome hf h
  obtain ⟨ready, rfl⟩ | ⟨waits, rfl⟩ := decElement_cases element
  · have ⟨_, remaining, _⟩ := ready
    exact ⟨rfl, rfl, rfl, rfl, rfl, fun waits => absurd ready waits,
      fun _ => ⟨rfl, Nat.sub_add_cancel remaining, rfl, out, rfl, words⟩, kept, cont⟩
  · exact ⟨rfl, rfl, rfl, rfl, rfl, fun _ => rfl, fun ready => absurd ready waits, fun _ => rfl,
      fun _ => ⟨rfl, rfl⟩⟩

/-! ## The validator's cause -/

/-- Settles O46: a value that fails `VALID` fails one of its three tests (`valid_iff`), and the
cause is read off them in their order; no surrogate is above `0x10FFFF`. -/
theorem validatorCauseIsTheFirstTestThatHolds :
    Obligations.ValidatorCauseIsTheFirstTestThatHolds := by
  intro v len min lengths rejected
  have hmin : minValue len = min := by
    obtain ⟨rfl, rfl⟩ | ⟨rfl, rfl⟩ | ⟨rfl, rfl⟩ := lengths <;> rfl
  have fails := (not_congr (valid_iff v len)).mp (Bool.eq_false_iff.mp rejected)
  simp only [hmin, isSurrogate] at fails
  simp only [validatorCause, hmin, isSurrogate]
  split_ifs <;> simp <;> omega

end Sys2Proof.Machine
end
